-- ==== Sys2Proof/Config.lean ====
section
/-! DEFINITION. What the spec fixes for every machine (00_scope.md R6) and the one free value of the model.
MEM_CAP and STRICT_INPUT are OPEN parameters: they are fields of each core (`Machine.Params`), so that a statement about
every state holds for every value of them. -/

namespace Sys2Proof.Config

/-- `MAX_OPERANDS` (R6): the largest operand count of any instruction. -/
def maxOperands : Nat := 3

/-- `N_CORES` (R6): the cores of the ring. -/
abbrev ringCores : Nat := 5

/-- The largest `MEM_CAP` (R6); at this capacity every non-negative 64-bit address is valid. -/
def memCapMax : Nat := 2 ^ 63

/-- FREE VALUE (log 4, safe). Which of several agents that have a step goes next, where `State.turns` does not say: the
source fixes no schedule (60_exceptions.md R170), so nothing constrains it. It is applied to `State.tick`. -/
opaque schedule : Nat → Nat

end Sys2Proof.Config
end

