-- ==== Sys2Proof/Word.lean ====
section
/-! DEFINITION. The one value type of the machine: the signed 64-bit integer (00_scope.md R6, R7; 10_state.md R16). -/

namespace Sys2Proof

/-- `I64` (R7): a two's-complement signed 64-bit integer (`XLEN`, R6); its value is `toInt`. The machine never shows the bits
(20_memory.md R31; DESIGN CHOICE, log 1, safe). -/
abbrev I64 := BitVec 64

/-- The `I64` of value `v`, for `v` in range. -/
abbrev I64.ofInt (v : Int) : I64 := BitVec.ofInt 64 v

/-- The least `I64`, `-2^63`. -/
def I64.minVal : Int := -2 ^ 63

/-- The greatest `I64`, `2^63 - 1`. -/
def I64.maxVal : Int := 2 ^ 63 - 1

end Sys2Proof
end

