-- ==== Sys2Proof/Syntax.lean ====
section
/-! DEFINITION. The instruction set (30_encoding.md R50 to R56): ten instructions, three parameter modes. -/

namespace Sys2Proof

/-- A parameter mode (R53). -/
inductive Mode where
  /-- Digit 0 (and 3 to 9): the operand is an address. -/
  | position
  /-- Digit 1: the operand is the literal value; illegal for a destination. -/
  | immediate
  /-- Digit 2: the operand is an offset from the relative base. -/
  | relative
deriving DecidableEq, Repr

/-- One operand: its mode, from the instruction word, and its raw cell, taken whole (R51, R56). -/
structure Operand where
  mode : Mode
  raw : I64
deriving DecidableEq, Repr

/-- The ten instructions by name (R54), without their operands. -/
inductive Op where
  | add | mul | input | output | jumpIfTrue | jumpIfFalse | lessThan | equals | adjustRelativeBase | halt
deriving DecidableEq, Repr

/-- The instructions with their operands in memory order: sources first, destination last (R54). -/
inductive Instr where
  /-- ADD, opcode 1 (41_arithmetic.md R91). -/
  | add (p0 p1 dst : Operand)
  /-- MUL, opcode 2 (41_arithmetic.md R92). -/
  | mul (p0 p1 dst : Operand)
  /-- IN, opcode 3 (42_io.md R105). -/
  | input (dst : Operand)
  /-- OUT, opcode 4 (42_io.md R106). -/
  | output (p0 : Operand)
  /-- JNZ, opcode 5 (43_jump.md R120). -/
  | jumpIfTrue (p0 p1 : Operand)
  /-- JZ, opcode 6 (43_jump.md R121). -/
  | jumpIfFalse (p0 p1 : Operand)
  /-- LT, opcode 7 (44_compare.md R130). -/
  | lessThan (p0 p1 dst : Operand)
  /-- EQ, opcode 8 (44_compare.md R131). -/
  | equals (p0 p1 dst : Operand)
  /-- ARB, opcode 9 (45_relative_base.md R140). -/
  | adjustRelativeBase (p0 : Operand)
  /-- HLT, opcode 99 (46_halt.md R145). -/
  | halt
deriving DecidableEq, Repr

/-- Which of the ten an instruction is. -/
def Instr.op : Instr → Op
  | .add _ _ _ => .add
  | .mul _ _ _ => .mul
  | .input _ => .input
  | .output _ => .output
  | .jumpIfTrue _ _ => .jumpIfTrue
  | .jumpIfFalse _ _ => .jumpIfFalse
  | .lessThan _ _ _ => .lessThan
  | .equals _ _ _ => .equals
  | .adjustRelativeBase _ => .adjustRelativeBase
  | .halt => .halt

/-- The operands in memory order (R51, R54). -/
def Instr.operands : Instr → List Operand
  | .add p0 p1 dst => [p0, p1, dst]
  | .mul p0 p1 dst => [p0, p1, dst]
  | .input dst => [dst]
  | .output p0 => [p0]
  | .jumpIfTrue p0 p1 => [p0, p1]
  | .jumpIfFalse p0 p1 => [p0, p1]
  | .lessThan p0 p1 dst => [p0, p1, dst]
  | .equals p0 p1 dst => [p0, p1, dst]
  | .adjustRelativeBase p0 => [p0]
  | .halt => []

/-- The operand an instruction writes, if it writes one (column `w` of R54). -/
def Instr.dst? : Instr → Option Operand
  | .add _ _ dst => some dst
  | .mul _ _ dst => some dst
  | .input dst => some dst
  | .output _ => none
  | .jumpIfTrue _ _ => none
  | .jumpIfFalse _ _ => none
  | .lessThan _ _ dst => some dst
  | .equals _ _ dst => some dst
  | .adjustRelativeBase _ => none
  | .halt => none

end Sys2Proof
end

