-- ==== Sys2Proof/WellFormed.lean ====
section
/-! DEFINITION. Which instruction terms are legal to execute. The decoder does not judge this (30_encoding.md R52): a term
that fails the check decodes and encodes, and executing it faults `IllegalWriteMode` (R60). -/

namespace Sys2Proof

/-- "The raw operand for a write parameter is never itself an immediate" (30_encoding.md R60). -/
def Operand.writable (p : Operand) : Bool :=
  match p.mode with
  | .position => true
  | .immediate => false
  | .relative => true

/-- An instruction is well formed when its destination, if it has one, is not in Immediate mode (R60). -/
def Instr.wf (i : Instr) : Bool :=
  match i.dst? with
  | none => true
  | some dst => dst.writable

end Sys2Proof
end

