-- ==== Sys2Proof/Decode.lean ====
section
/-! DEFINITION. The decoder (30_encoding.md R50 to R60, R66) and, after it, the canonical encoder (R62). -/

namespace Sys2Proof

/-- `digit_k(n)` (00_scope.md R7): the decimal digit of weight `10^k`. -/
def digit (k n : Nat) : Nat := n / 10 ^ k % 10

/-- The mode of a mode digit (R53): "anything else→Position". -/
def Mode.ofDigit (d : Nat) : Mode :=
  if d = 1 then .immediate else if d = 2 then .relative else .position

/-- What `Decode` yields for a word that is not `Invalid` (R52): the opcode, 0 to 99, and the five mode slots. -/
structure Decoded where
  opcode : Nat
  m0 : Mode
  m1 : Mode
  m2 : Mode
  m3 : Mode
  m4 : Mode
deriving DecidableEq, Repr

/-- The split of a word of value `n >= 0` into its opcode and mode digits (R50, R52). Digits of weight `10^7` and above are
not decoded (R59; decision D5, log 12). -/
def splitWord (n : Nat) : Decoded where
  opcode := n % 100
  m0 := .ofDigit (digit 0 (n / 100))
  m1 := .ofDigit (digit 1 (n / 100))
  m2 := .ofDigit (digit 2 (n / 100))
  m3 := .ofDigit (digit 3 (n / 100))
  m4 := .ofDigit (digit 4 (n / 100))

/-- `Decode` (R52): `none` is `Invalid`, the answer for a negative word (R58; decision D4, log 11). -/
def decodeWord (w : I64) : Option Decoded :=
  if w.toInt < 0 then none else some (splitWord w.toInt.toNat)

/-- The mode slot of operand `i`; slots past the fifth do not exist and are never asked for. -/
def Decoded.slot (d : Decoded) (i : Nat) : Mode :=
  match i with
  | 0 => d.m0
  | 1 => d.m1
  | 2 => d.m2
  | 3 => d.m3
  | _ => d.m4

/-- The opcode of each instruction (R54). -/
def Op.opcode : Op → Nat
  | .add => 1
  | .mul => 2
  | .input => 3
  | .output => 4
  | .jumpIfTrue => 5
  | .jumpIfFalse => 6
  | .lessThan => 7
  | .equals => 8
  | .adjustRelativeBase => 9
  | .halt => 99

/-- `operand_count` (R54). -/
def Op.operandCount : Op → Nat
  | .add => 3
  | .mul => 3
  | .input => 1
  | .output => 1
  | .jumpIfTrue => 2
  | .jumpIfFalse => 2
  | .lessThan => 3
  | .equals => 3
  | .adjustRelativeBase => 1
  | .halt => 0

/-- The length of an instruction in cells, a function of the opcode alone (R55). -/
def Instr.length (i : Instr) : Nat := 1 + i.op.operandCount

/-- The instruction an opcode selects (R54, R66); 0 and 10 to 98 select none (R57). -/
def Op.ofOpcode (n : Nat) : Option Op :=
  if n = 1 then some .add
  else if n = 2 then some .mul
  else if n = 3 then some .input
  else if n = 4 then some .output
  else if n = 5 then some .jumpIfTrue
  else if n = 6 then some .jumpIfFalse
  else if n = 7 then some .lessThan
  else if n = 8 then some .equals
  else if n = 9 then some .adjustRelativeBase
  else if n = 99 then some .halt
  else none

/-- Why a run of cells is no instruction. -/
inductive DecodeError where
  /-- The word is negative (R58). -/
  | negativeWord
  /-- `w mod 100` is 0 or 10 to 98 (R57). -/
  | unknownOpcode (opcode : Nat)
  /-- There are fewer cells than the instruction has (R50). -/
  | truncated
deriving DecidableEq, Repr

/-- The instruction a word selects, with its decoding, or why it selects none (R57, R58, R66). -/
def selectOp (w : I64) : Except DecodeError (Op × Decoded) :=
  match decodeWord w with
  | none => .error .negativeWord
  | some d =>
    match Op.ofOpcode d.opcode with
    | none => .error (.unknownOpcode d.opcode)
    | some op => .ok (op, d)

/-- Operand `i`: its mode slot and its raw cell (R51, R56). -/
def operandAt (d : Decoded) (raws : List I64) (i : Nat) : Operand :=
  { mode := d.slot i, raw := raws.getD i 0#64 }

/-- The instruction made of a selected operation, its mode slots and its raw operand cells (R50, R51). Slots of absent
operands are ignored (R59; decision D6, log 12). -/
def Op.build (op : Op) (d : Decoded) (raws : List I64) : Instr :=
  let p := operandAt d raws
  match op with
  | .add => .add (p 0) (p 1) (p 2)
  | .mul => .mul (p 0) (p 1) (p 2)
  | .input => .input (p 0)
  | .output => .output (p 0)
  | .jumpIfTrue => .jumpIfTrue (p 0) (p 1)
  | .jumpIfFalse => .jumpIfFalse (p 0) (p 1)
  | .lessThan => .lessThan (p 0) (p 1) (p 2)
  | .equals => .equals (p 0) (p 1) (p 2)
  | .adjustRelativeBase => .adjustRelativeBase (p 0)
  | .halt => .halt

/-- The decoder on a run of cells: the instruction at its head and the cells after it, or why there is none. -/
def decode (cells : List I64) : Except DecodeError (Instr × List I64) :=
  match cells with
  | [] => .error .truncated
  | w :: rest =>
    match selectOp w with
    | .error e => .error e
    | .ok (op, d) =>
      if rest.length < op.operandCount then .error .truncated
      else .ok (op.build d (rest.take op.operandCount), rest.drop op.operandCount)

/-! The encoder. -/

/-- The mode digit an encoder writes (R62). -/
def Mode.digit : Mode → Nat
  | .position => 0
  | .immediate => 1
  | .relative => 2

/-- The mode digits of operands in order, the first one least significant (R50). -/
def modesValue : List Operand → Nat
  | [] => 0
  | p :: ps => p.mode.digit + 10 * modesValue ps

/-- The canonical instruction word (R62): `opcode + 100*m0 + 1000*m1 + 10000*m2`. -/
def encodeWord (i : Instr) : Nat := i.op.opcode + 100 * modesValue i.operands

/-- The canonical cells of an instruction: its word, then its raw operands (R50, R62). -/
def encode (i : Instr) : List I64 :=
  BitVec.ofNat 64 (encodeWord i) :: i.operands.map Operand.raw

/-! The words of the opcode table. -/

/-- The cells of an instruction whose bits are `w`: cell `k` is bits `64k + 63 .. 64k`, and every bit from `nbits` on is
0 (DESIGN CHOICE, log 23: the table numbers decimal digits, the host asks by bits). -/
def tableCells (nbits w : Nat) : List I64 :=
  let bits := w % 2 ^ nbits
  (List.range (1 + Config.maxOperands)).map fun k => BitVec.ofNat 64 (bits / 2 ^ (64 * k))

/-- The instruction the decoder reads from the bits `w`. -/
def decodeTableWord (nbits w : Nat) : Option Instr :=
  match decode (tableCells nbits w) with
  | .error _ => none
  | .ok (i, _) => some i

/-! The assembly notation of the spec (R64), for reading programs. -/

/-- The mnemonic of each instruction (R54, R64). -/
def Op.mnemonic : Op → List Char
  | .add => ['A', 'D', 'D']
  | .mul => ['M', 'U', 'L']
  | .input => ['I', 'N']
  | .output => ['O', 'U', 'T']
  | .jumpIfTrue => ['J', 'N', 'Z']
  | .jumpIfFalse => ['J', 'Z']
  | .lessThan => ['L', 'T']
  | .equals => ['E', 'Q']
  | .adjustRelativeBase => ['A', 'R', 'B']
  | .halt => ['H', 'L', 'T']

/-- A signed decimal integer (R7, R64). -/
def decimal (v : Int) : List Char :=
  if v < 0 then '-' :: Nat.toDigits 10 v.natAbs else Nat.toDigits 10 v.natAbs

/-- An operand in the notation of R64. -/
def Operand.asm (p : Operand) : List Char :=
  match p.mode with
  | .position => '[' :: decimal p.raw.toInt ++ [']']
  | .immediate => '#' :: decimal p.raw.toInt
  | .relative =>
    ['[', 'r', 'b'] ++ (if p.raw.toInt < 0 then [] else ['+']) ++ decimal p.raw.toInt ++ [']']

/-- Operands separated by commas (R64). -/
def asmOperands : List Operand → List Char
  | [] => []
  | [p] => p.asm
  | p :: q :: ps => p.asm ++ [',', ' '] ++ asmOperands (q :: ps)

/-- An instruction as a line of the notation of R64. -/
def Instr.asm (i : Instr) : List Char :=
  match i.operands with
  | [] => i.op.mnemonic
  | ps => i.op.mnemonic ++ [' '] ++ asmOperands ps

end Sys2Proof
end

