-- ==== Sys2Proof/Machine/State.lean ====
section
/-! DEFINITION. The state of the platform: its cores, its channels and the host (10_state.md section 1), as plain data; the
reasons a step stops; and the state after reset (R22). -/

namespace Sys2Proof.Machine

/-- Which access an `AddressOutOfRange` fault is about (60_exceptions.md R152). -/
inductive AccessKind where
  | fetch | operand | read | write | jump
deriving DecidableEq, Repr

/-- Why a strict Input finds nothing (R155). -/
inductive NoInput where
  | noEndpoint | closed
deriving DecidableEq, Repr

/-- The faults of the machine with what each records (60_exceptions.md R150 to R155). Taking one is a next state (R158). -/
inductive Cause where
  | illegalInstruction (pc : Nat) (word : I64)
  | addressOutOfRange (address : Int) (kind : AccessKind)
  | arithmeticOverflow (pc : Nat) (word : I64)
  | illegalWriteMode (pc : Nat) (word : I64)
  | inputUnavailable (pc : Nat) (reason : NoInput)
deriving DecidableEq, Repr

/-- The run status (10_state.md R14). A blocked core is `running`. -/
inductive Status where
  | running | halted | faulted (cause : Cause)
deriving DecidableEq, Repr

/-- The OPEN parameters of one core (00_scope.md R6), fixed at construction and never written (log 2). -/
structure Params where
  /-- `MEM_CAP`: valid addresses are `0` to `memCap - 1`. -/
  memCap : Nat
  /-- `STRICT_INPUT`: an Input that finds no endpoint, or a closed and empty one, faults. -/
  strictInput : Bool
deriving DecidableEq, Repr

/-- The cells that do not hold 0, by rising address; an unlisted cell holds 0 (10_state.md R22, log 9). -/
abbrev Memory := List (Nat × I64)

/-- The state of one core (10_state.md section 1), with its parameters. -/
structure CoreState where
  params : Params
  /-- `M` (R16). -/
  mem : Memory
  /-- `pc` (R11). -/
  pc : Nat
  /-- `rb` (R13). -/
  rb : I64
  /-- `status` (R14). -/
  status : Status
  /-- `last_output` (R15). -/
  lastOutput : Option I64
  /-- `In` (R17): the channel whose consuming end this core holds, by its place in `State.chans`. -/
  inCh : Option Nat
  /-- `Out` (R17): the channel whose producing end this core holds. -/
  outCh : Option Nat
deriving DecidableEq, Repr

/-- The state of one channel (R18). -/
structure Channel where
  /-- Oldest item first; unbounded. -/
  q : List I64
  producerClosed : Bool
  consumerDropped : Bool
deriving DecidableEq, Repr

/-- What the host can do (60_exceptions.md R177, R103, R174). Channels, programs and cores are named by their place. -/
inductive HostAction where
  /-- Parse program text (70_reset_and_hazards.md R186). -/
  | load (text : List Char)
  /-- Make a channel (R184 item 3). -/
  | newChannel
  /-- Construct a core from a parsed Program (R181, R182). -/
  | construct (program : Nat) (params : Params) (inCh outCh : Option Nat)
  /-- `run()` (40_execution_loop.md R78): wait for the end of a core's run. -/
  | run (core : Nat)
  /-- `Produce` (42_io.md R101). -/
  | produce (ch : Nat) (v : I64)
  /-- `CloseProducer` (42_io.md R103). -/
  | closeProducer (ch : Nat)
  /-- `DropConsumer` (42_io.md R103). -/
  | dropConsumer (ch : Nat)
  /-- `Consume` by the host (42_io.md R102). -/
  | drain (ch : Nat)
  /-- Read a cell of a stopped core (10_state.md R24). -/
  | readCell (core address : Nat)
  /-- Read `pc` of a stopped core (40_execution_loop.md R79). -/
  | readPc (core : Nat)
  /-- Read `rb` of a stopped core (R79). -/
  | readRb (core : Nat)
  /-- Read `last_output` of a stopped core (10_state.md R15, R24). -/
  | readLast (core : Nat)
  /-- Read `status` of a stopped core (10_state.md R14, R24). -/
  | readStatus (core : Nat)
deriving DecidableEq, Repr

/-- What the host has been given. -/
inductive HostItem where
  /-- A value drained from a channel. -/
  | value (ch : Nat) (v : I64)
  /-- A drained channel was closed and empty. -/
  | closed (ch : Nat)
  | cell (core address : Nat) (v : I64)
  | pc (core pc : Nat)
  | rb (core : Nat) (v : I64)
  | last (core : Nat) (v : I64)
  | status (core : Nat) (st : Status)
  /-- The run of a core ended in a fault: `run()` did not return normally (40_execution_loop.md R78; log 34). -/
  | runFaulted (core : Nat) (cause : Cause)
deriving DecidableEq, Repr

/-- The host (60_exceptions.md R177), as an agent with work to do (log 7). -/
structure HostState where
  /-- The actions still to do, in order. -/
  script : List HostAction
  /-- The Programs parsed so far (10_state.md R21). -/
  programs : List (List I64)
  /-- What the host has read, oldest first. -/
  got : List HostItem
deriving DecidableEq, Repr

/-- Who can take a step (60_exceptions.md R170). -/
inductive Agent where
  | core (number : Nat)
  | host
deriving DecidableEq, Repr

/-- The platform. Its cores, by number, are `before ++ core :: after`; `core` is the one an instruction acts on (log 3). -/
structure State where
  before : List CoreState
  core : CoreState
  after : List CoreState
  chans : List Channel
  host : HostState
  /-- Who moves next, as far as it is given (R170, log 4). -/
  turns : List Agent
  /-- How many scheduling choices were taken from `Config.schedule` (log 4). -/
  tick : Nat
deriving DecidableEq, Repr

/-- Why the model stops without a next state. None of these is a fault of the machine (those are `Cause`); each is safe:
the model stops where the spec gives the agent, or the platform, no step. -/
inductive Fault where
  /-- Raised by Input, and by the host's drain, on an empty open channel: "a model gives a blocked core no step"
  (42_io.md R104, R102; U9). Safe. -/
  | blocked
  /-- Raised by a core's step when the core is Halted or Faulted (10_state.md R14). Safe. -/
  | stopped
  /-- Raised by the host's step when it has nothing left to do. Safe. -/
  | hostIdle
  /-- Raised by the host's `run()` while the core's run has not ended, blocked or not: "`run()` waits"
  (40_execution_loop.md R78). Safe. -/
  | waiting
  /-- Raised by the step when no agent has one and every core is Halted: the good end (40_execution_loop.md R79). Safe. -/
  | finished
  /-- Raised by the step when no agent has one, no core is Running and some core is Faulted (R79). Safe. -/
  | failed
  /-- Raised by the step when no agent has one and some core is Running: the hang of 60_exceptions.md R175. Safe. -/
  | deadlock
  /-- Raised by a turn that names a core that does not exist. Safe. -/
  | noSuchCore
  /-- Raised by Input and Output when an endpoint names a channel that does not exist; no constructed platform has one
  (log 26). Safe. -/
  | noSuchChannel
deriving DecidableEq, Repr

/-- What the model gives no meaning. -/
inductive Refusal where
  /-- An instruction without a meaning yet. Raised by `exec`'s arm only. Safe. -/
  | notModelled (mnemonic : String)
  /-- Raised by a host action the spec does not allow at this moment, or on an end the host does not hold
  (60_exceptions.md R174, R177). Safe. -/
  | hostForbidden
  /-- Raised by loading malformed program text: no Program is made (60_exceptions.md R161, U15). Safe. -/
  | malformedText
  /-- Raised by constructing a core from a Program longer than `MEM_CAP` (R161, U16). Safe. -/
  | programTooLong
  /-- Raised by a host read of a core that is still Running (10_state.md R24, U14). Safe. -/
  | runningCoreRead
  /-- Raised by a host read of `last_output` before any Output (U13). Safe. -/
  | noLastOutput
deriving DecidableEq, Repr

/-- The outcome of a step of this machine. -/
abbrev Result := Host.Outcome State Fault Refusal

/-- The machine right after reset (R22, R180, R181): one core constructed by `from` from the empty Program, no channel, and
a host with nothing to do. The value of `MEM_CAP` is a DESIGN CHOICE (log 2), the empty Program another (log 8). -/
def State.reset : State where
  before := []
  core := {
    params := { memCap := 2 ^ 63, strictInput := false }
    mem := []
    pc := 0
    rb := 0#64
    status := .running
    lastOutput := none
    inCh := none
    outCh := none }
  after := []
  chans := []
  host := { script := [], programs := [], got := [] }
  turns := []
  tick := 0

end Sys2Proof.Machine
end

