-- ==== Sys2Proof/Machine/Ops.lean ====
section
/-! DEFINITION. The named operations on memory, core, channels and platform that every meaning is written with:
memory access (20_memory.md), `to_i64` (41_arithmetic.md R90), taking a fault (60_exceptions.md R158), the channel
transactions (42_io.md R101 to R103), and construction, which is reset (70_reset_and_hazards.md R180 to R182). -/

namespace Sys2Proof.Machine

/-! Memory. -/

/-- The cell at an address; a cell not listed holds 0 (10_state.md R22). -/
def Memory.read (m : Memory) (a : Nat) : I64 :=
  match m with
  | [] => 0#64
  | (k, v) :: rest => if a = k then v else Memory.read rest a

/-- A cell in front of a memory, unless it holds what an unlisted cell holds. -/
def Memory.cons (a : Nat) (v : I64) (m : Memory) : Memory :=
  if v = 0#64 then m else (a, v) :: m

/-- The memory with one cell replaced (20_memory.md R34), in canonical form. -/
def Memory.write (m : Memory) (a : Nat) (v : I64) : Memory :=
  match m with
  | [] => Memory.cons a v []
  | (k, x) :: rest =>
    if a < k then Memory.cons a v ((k, x) :: rest)
    else if a = k then Memory.cons a v rest
    else (k, x) :: Memory.write rest a v

/-- The memory whose cells from `a` on are the given ones (20_memory.md R35), in canonical form. -/
def Memory.ofCells (a : Nat) (cells : List I64) : Memory :=
  match cells with
  | [] => []
  | v :: vs => Memory.cons a v (Memory.ofCells (a + 1) vs)

/-- The canonical form, with every listed address at least `lo`: addresses strictly rising, no listed cell 0. -/
def Memory.wfFrom (lo : Nat) (m : Memory) : Bool :=
  match m with
  | [] => true
  | (k, v) :: rest => decide (lo ≤ k) && decide (v ≠ 0#64) && Memory.wfFrom (k + 1) rest

/-- The canonical form of memory. -/
def Memory.wf (m : Memory) : Bool := Memory.wfFrom 0 m

/-- Every listed address exists in a memory of `cap` cells. -/
def Memory.below (cap : Nat) (m : Memory) : Bool := m.all fun c => decide (c.1 < cap)

/-! Arithmetic. -/

/-- `to_i64` (41_arithmetic.md R90): `none` stands for the overflow, which the instruction raises. -/
def toI64 (v : Int) : Option I64 :=
  if I64.minVal ≤ v ∧ v ≤ I64.maxVal then some (I64.ofInt v) else none

/-! One core. -/

/-- The range check (20_memory.md R33): the address itself, when it exists. -/
def CoreState.checkAddr (c : CoreState) (ea : Int) (kind : AccessKind) : Except Cause Nat :=
  if 0 ≤ ea ∧ ea < c.params.memCap then .ok ea.toNat else .error (.addressOutOfRange ea kind)

/-- `MemRead(ea, 1)` (00_scope.md R8). -/
def CoreState.memRead (c : CoreState) (ea : Int) (kind : AccessKind) : Except Cause I64 :=
  match c.checkAddr ea kind with
  | .error e => .error e
  | .ok a => .ok (c.mem.read a)

/-- `MemRead(a, n)` (00_scope.md R8), lowest address first: the first missing cell is reported. -/
def CoreState.memReadCells (c : CoreState) (kind : AccessKind) (a : Nat) (n : Nat) : Except Cause (List I64) :=
  match n with
  | 0 => .ok []
  | n + 1 =>
    match c.memRead a kind with
    | .error e => .error e
    | .ok v =>
      match c.memReadCells kind (a + 1) n with
      | .error e => .error e
      | .ok vs => .ok (v :: vs)

/-- `M[pc]`, the word a fault records (60_exceptions.md R151, R153, R154). -/
def CoreState.word (c : CoreState) : I64 := c.mem.read c.pc

/-- `M[a] <- v`. -/
def CoreState.store (c : CoreState) (a : Nat) (v : I64) : CoreState := { c with mem := c.mem.write a v }

/-- `pc <- pc + k` (40_execution_loop.md R77); never wraps. -/
def CoreState.advance (c : CoreState) (k : Nat) : CoreState := { c with pc := c.pc + k }

/-- `pc <- t` (43_jump.md R122). -/
def CoreState.jump (c : CoreState) (t : Nat) : CoreState := { c with pc := t }

/-- `rb <- v` (10_state.md R13). -/
def CoreState.setRb (c : CoreState) (v : I64) : CoreState := { c with rb := v }

/-- `last_output <- v` (10_state.md R15). -/
def CoreState.setLast (c : CoreState) (v : I64) : CoreState := { c with lastOutput := some v }

/-- `status <- st` (10_state.md R14). -/
def CoreState.setStatus (c : CoreState) (st : Status) : CoreState := { c with status := st }

/-- The code number of a fault (60_exceptions.md R150). -/
def Cause.code : Cause → Nat
  | .illegalInstruction _ _ => 1
  | .addressOutOfRange _ _ => 2
  | .arithmeticOverflow _ _ => 3
  | .illegalWriteMode _ _ => 4
  | .inputUnavailable _ _ => 5

/-! The platform. -/

/-- All cores, by number. -/
def State.cores (s : State) : List CoreState := s.before ++ s.core :: s.after

/-- The number of the core an instruction acts on. -/
def State.coreNumber (s : State) : Nat := s.before.length

/-- The platform with the current core replaced. -/
def State.withCore (s : State) (c : CoreState) : State := { s with core := c }

/-- The platform with one channel replaced. -/
def State.withChan (s : State) (k : Nat) (ch : Channel) : State := { s with chans := s.chans.set k ch }

/-- The platform with core `j` as the current one; `none` if there is no core `j`. No core changes. -/
def State.select (s : State) (j : Nat) : Option State :=
  match s.cores.drop j with
  | [] => none
  | c :: rest => some { s with before := s.cores.take j, core := c, after := rest }

/-- TAKING A FAULT (60_exceptions.md R158): `status <- Faulted(cause, info)` and nothing else changes. There is no return
from it (R159). -/
def State.raise (s : State) (e : Cause) : State := s.withCore (s.core.setStatus (.faulted e))

/-- The end of an instruction that acts on its core alone: the new core, or the fault it raises. -/
def finish (s : State) (r : Except Cause CoreState) : Result :=
  match r with
  | .error e => .next (s.raise e)
  | .ok c => .next (s.withCore c)

/-! Channels. -/

/-- A new channel (10_state.md R22). -/
def Channel.new : Channel := { q := [], producerClosed := false, consumerDropped := false }

/-- `Produce` (42_io.md R101): appends, or discards the value when the consuming end is dropped. -/
def Channel.produce (ch : Channel) (v : I64) : Channel :=
  if ch.consumerDropped then ch else { ch with q := ch.q ++ [v] }

/-- The answers of `Consume` (42_io.md R102). -/
inductive Consumed where
  | value (v : I64) (rest : Channel)
  | closed
  | wouldBlock
deriving DecidableEq, Repr

/-- `Consume` (42_io.md R102): queued values are delivered before closure is reported. -/
def Channel.consume (ch : Channel) : Consumed :=
  match ch.q with
  | v :: vs => .value v { ch with q := vs }
  | [] => if ch.producerClosed then .closed else .wouldBlock

/-- `CloseProducer` (42_io.md R103). -/
def Channel.closeProducer (ch : Channel) : Channel := { ch with producerClosed := true }

/-- `DropConsumer` (42_io.md R103). -/
def Channel.dropConsumer (ch : Channel) : Channel := { ch with consumerDropped := true }

/-! Construction, which is reset (70_reset_and_hazards.md R180). -/

/-- The state of a core constructed by `new` with the endpoints given (R182), or by `from` with none (R181). -/
def CoreState.new (params : Params) (program : List I64) (inCh outCh : Option Nat) : CoreState where
  params := params
  mem := Memory.ofCells 0 program
  pc := 0
  rb := 0#64
  status := .running
  lastOutput := none
  inCh := inCh
  outCh := outCh

/-- May a core be constructed: the Program fits (60_exceptions.md R161) and `MEM_CAP` is one (00_scope.md R6)? -/
def constructible (params : Params) (program : List I64) : Bool :=
  decide (program.length ≤ params.memCap) && decide (params.memCap ≤ Config.memCapMax)

/-- The two endpoints of one core are ends of different channels: the opposite end of each "belongs to another core or to the
host" (10_state.md R17). -/
def endsApart (inCh outCh : Option Nat) : Bool := inCh.isNone || decide (inCh ≠ outCh)

/-- An endpoint is an end of a channel that exists. -/
def endExists (chans : List Channel) (e : Option Nat) : Bool :=
  match e with
  | none => true
  | some k => decide (k < chans.length)

/-- The host at the start: nothing to do and nothing read. -/
def HostState.new : HostState := { script := [], programs := [], got := [] }

/-- A core used alone, with the channels given (R181, R182); the opposite ends are the host's. -/
def State.solo (params : Params) (program : List I64) (inCh outCh : Option Nat) (chans : List Channel) : Option State :=
  if constructible params program && endsApart inCh outCh && endExists chans inCh && endExists chans outCh then
    some {
      before := []
      core := CoreState.new params program inCh outCh
      after := []
      chans := chans
      host := HostState.new
      turns := []
      tick := 0 }
  else none

/-- The start of `run_with_inputs` (42_io.md R107): `cin` is channel 0, pre-loaded in order; `cout` is channel 1. Whether the
host closes `cin` is the open parameter `HOST_CLOSES_INPUT` (decision D18). -/
def State.withInputs (params : Params) (program inputs : List I64) (closes : Bool) : Option State :=
  let loaded := inputs.foldl Channel.produce Channel.new
  let cin := if closes then loaded.closeProducer else loaded
  State.solo params program (some 0) (some 1) [cin, Channel.new]

/-- The result of `run_with_inputs` (42_io.md R107): the queue of `cout` once the core has halted. -/
def State.outputs (s : State) : Option (List I64) :=
  match s.core.status, s.chans[1]? with
  | .halted, some cout => some cout.q
  | _, _ => none

/-- Channel `i` of the ring before any core steps: phase `i`, and on channel 0 the initial signal 0 after it
(60_exceptions.md R172; conflict C4). -/
def ringChannel (phases : Vector I64 Config.ringCores) (i : Fin Config.ringCores) : Channel :=
  let seeded := Channel.new.produce (phases.get i)
  if i.val = 0 then seeded.produce 0#64 else seeded

/-- Core `i` of the ring (R171): `In = ch[i]`, `Out = ch[(i + 1) mod 5]`. -/
def ringCore (params : Params) (program : List I64) (i : Nat) : CoreState :=
  CoreState.new params program (some i) (some ((i + 1) % Config.ringCores))

/-- The start of `run_network` (R171, R172): five cores from the same Program, every channel seeded. -/
def State.ring (params : Params) (program : List I64) (phases : Vector I64 Config.ringCores) : Option State :=
  if constructible params program then
    some {
      before := []
      core := ringCore params program 0
      after := [1, 2, 3, 4].map (ringCore params program)
      chans := (List.finRange Config.ringCores).map (ringChannel phases)
      host := HostState.new
      turns := []
      tick := 0 }
  else none

/-- The result of `run_network` (R173): core 4's `last_output` once all five cores have halted. -/
def State.ringResult (s : State) : Option I64 :=
  if s.cores.length = Config.ringCores ∧ s.cores.all (fun c => decide (c.status = .halted)) then
    match s.cores[4]? with
    | some c => c.lastOutput
    | none => none
  else none

end Sys2Proof.Machine
end

