-- ==== Sys2Proof/Machine/Operands.lean ====
section
/-! DEFINITION. Operand resolution (40_execution_loop.md R73 to R75): the three modes, for a source and for a destination. -/

namespace Sys2Proof.Machine

/-- The effective address (R73): exact in `Int`, with no wrap-around; Immediate mode has none. -/
def CoreState.effectiveAddr (c : CoreState) (p : Operand) : Option Int :=
  match p.mode with
  | .position => some p.raw.toInt
  | .immediate => none
  | .relative => some (c.rb.toInt + p.raw.toInt)

/-- `ReadParam` (R74): the value of a source operand. -/
def CoreState.readParam (c : CoreState) (p : Operand) : Except Cause I64 :=
  match c.effectiveAddr p with
  | none => .ok p.raw
  | some ea => c.memRead ea .read

/-- `WriteAddr` (R75): the address a destination operand names, never dereferenced; Immediate mode faults (R60). -/
def CoreState.writeAddr (c : CoreState) (p : Operand) : Except Cause Nat :=
  match c.effectiveAddr p with
  | none => .error (.illegalWriteMode c.pc c.word)
  | some ea => c.checkAddr ea .write

/-- Both sources, in index order (20_memory.md R38 item 2). -/
def CoreState.readTwo (c : CoreState) (p0 p1 : Operand) : Except Cause (I64 × I64) :=
  match c.readParam p0 with
  | .error e => .error e
  | .ok a =>
    match c.readParam p1 with
    | .error e => .error e
    | .ok b => .ok (a, b)

/-- The end of a three-operand instruction: resolve the destination, store the result, `pc <- pc + 4`. -/
def CoreState.storeResult (c : CoreState) (dst : Operand) (v : I64) : Except Cause CoreState :=
  match c.writeAddr dst with
  | .error e => .error e
  | .ok ea => .ok ((c.store ea v).advance 4)

end Sys2Proof.Machine
end

