-- ==== Sys2Proof/Machine/Arithmetic.lean ====
section
/-! DEFINITION. Add and Multiply (41_arithmetic.md). -/

namespace Sys2Proof.Machine

/-- The exact result of an operation brought back to `I64`, or the overflow it raises (R90). -/
def CoreState.exact (c : CoreState) (v : Int) : Except Cause I64 :=
  match toI64 v with
  | none => .error (.arithmeticOverflow c.pc c.word)
  | some r => .ok r

/-- Read two sources, compute exactly, check, store (R91, R92): the common part of Add and Multiply. -/
def CoreState.arith (c : CoreState) (f : Int → Int → Int) (p0 p1 dst : Operand) : Except Cause CoreState :=
  match c.readTwo p0 p1 with
  | .error e => .error e
  | .ok (a, b) =>
    match c.exact (f a.toInt b.toInt) with
    | .error e => .error e
    | .ok v => c.storeResult dst v

/-- ADD (R91): `dst = read(p0) + read(p1)`. -/
def execAdd (p0 p1 dst : Operand) (s : State) : Result :=
  finish s (s.core.arith (fun a b => a + b) p0 p1 dst)

/-- MUL (R92): `dst = read(p0) * read(p1)`. -/
def execMul (p0 p1 dst : Operand) (s : State) : Result :=
  finish s (s.core.arith (fun a b => a * b) p0 p1 dst)

end Sys2Proof.Machine
end

