-- ==== Sys2Proof/Machine/Flags.lean ====
section
/-! DEFINITION. The machine has no flags (10_state.md R19). What a flag is elsewhere is here a cell that holds 1 or 0
(44_compare.md R130, R131), and a condition is a value tested against zero (43_jump.md R120, R121). -/

namespace Sys2Proof.Machine

/-- The value a comparison stores: exactly 1 or 0. -/
def truthValue (b : Bool) : I64 := if b then 1#64 else 0#64

/-- The signed comparison of LessThan (R130). -/
def lessThan (a b : I64) : Bool := decide (a.toInt < b.toInt)

/-- The comparison of Equals (R131). -/
def sameValue (a b : I64) : Bool := decide (a.toInt = b.toInt)

/-- "True" is any value but zero, negative ones included (R120). -/
def isNonzero (v : I64) : Bool := decide (v.toInt ≠ 0)

end Sys2Proof.Machine
end

