-- ==== Sys2Proof/Machine/Compare.lean ====
section
/-! DEFINITION. LessThan and Equals (44_compare.md). -/

namespace Sys2Proof.Machine

/-- Read two sources, compare, store 1 or 0 (R130, R131): the common part of LessThan and Equals. -/
def CoreState.compare (c : CoreState) (f : I64 → I64 → Bool) (p0 p1 dst : Operand) : Except Cause CoreState :=
  match c.readTwo p0 p1 with
  | .error e => .error e
  | .ok (a, b) => c.storeResult dst (truthValue (f a b))

/-- LT (R130): "`dst = 1 if read(p0) < read(p1) else 0`". -/
def execLessThan (p0 p1 dst : Operand) (s : State) : Result :=
  finish s (s.core.compare lessThan p0 p1 dst)

/-- EQ (R131): "`dst = 1 if read(p0) == read(p1) else 0`". -/
def execEquals (p0 p1 dst : Operand) (s : State) : Result :=
  finish s (s.core.compare sameValue p0 p1 dst)

end Sys2Proof.Machine
end

