-- ==== Sys2Proof/Machine/Halt.lean ====
section
/-! DEFINITION. Halt (46_halt.md). -/

namespace Sys2Proof.Machine

/-- HLT (R145): `status <- Halted`; `pc` stays at the Halt word (decision D13, log 17). -/
def execHalt (s : State) : Result := .next (s.withCore (s.core.setStatus .halted))

end Sys2Proof.Machine
end

