-- ==== Sys2Proof/Machine/Io.lean ====
section
/-! DEFINITION. Input and Output (42_io.md). -/

namespace Sys2Proof.Machine

/-- An Input that finds no endpoint, or a closed and empty one (R105): a no-op, or in strict mode a fault (R155). -/
def inputMissing (why : NoInput) (s : State) : Result :=
  if s.core.params.strictInput then .next (s.raise (.inputUnavailable s.core.pc why))
  else .next (s.withCore (s.core.advance 2))

/-- Input once its destination is resolved (R105): the channel is consulted only now (decision D16). -/
def inputTo (ea : Nat) (s : State) : Result :=
  match s.core.inCh with
  | none => inputMissing .noEndpoint s
  | some k =>
    match s.chans[k]? with
    | none => .fault .noSuchChannel
    | some ch =>
      match ch.consume with
      | .value v rest => .next ((s.withCore ((s.core.store ea v).advance 2)).withChan k rest)
      | .closed => inputMissing .closed s
      | .wouldBlock => .fault .blocked

/-- IN (R105). On an empty open channel the core has no step (R104): the model stops by name (log 5). -/
def execInput (dst : Operand) (s : State) : Result :=
  match s.core.writeAddr dst with
  | .error e => .next (s.raise e)
  | .ok ea => inputTo ea s

/-- `if Out != none: Produce(Out, v)` (R106). -/
def produceOut (v : I64) (s : State) : Except Fault State :=
  match s.core.outCh with
  | none => .ok s
  | some k =>
    match s.chans[k]? with
    | none => .error .noSuchChannel
    | some ch => .ok (s.withChan k (ch.produce v))

/-- OUT (R106): `last_output` is written whether or not anyone receives the value (conflict C7). -/
def execOutput (p0 : Operand) (s : State) : Result :=
  match s.core.readParam p0 with
  | .error e => .next (s.raise e)
  | .ok v =>
    match produceOut v s with
    | .error f => .fault f
    | .ok t => .next (t.withCore ((t.core.setLast v).advance 2))

end Sys2Proof.Machine
end

