-- ==== Sys2Proof/Machine/Jump.lean ====
section
/-! DEFINITION. JumpIfTrue and JumpIfFalse (43_jump.md). -/

namespace Sys2Proof.Machine

/-- `SetPc` (R122): a negative target faults here; any other is taken without a range check. -/
def CoreState.setPc (c : CoreState) (t : Int) : Except Cause CoreState :=
  if t < 0 then .error (.addressOutOfRange t .jump) else .ok (c.jump t.toNat)

/-- A conditional jump (R120, R121): the target operand is resolved only when the jump is taken (decision D12). -/
def CoreState.jumpWhen (c : CoreState) (cond : I64 → Bool) (p0 p1 : Operand) : Except Cause CoreState :=
  match c.readParam p0 with
  | .error e => .error e
  | .ok v =>
    if cond v then
      match c.readParam p1 with
      | .error e => .error e
      | .ok t => c.setPc t.toInt
    else .ok (c.advance 3)

/-- JNZ (R120): "if `read(p0) != 0`, `pc = read(p1)`". -/
def execJumpIfTrue (p0 p1 : Operand) (s : State) : Result :=
  finish s (s.core.jumpWhen isNonzero p0 p1)

/-- JZ (R121): "if `read(p0) == 0`, `pc = read(p1)`". -/
def execJumpIfFalse (p0 p1 : Operand) (s : State) : Result :=
  finish s (s.core.jumpWhen (fun v => !isNonzero v) p0 p1)

end Sys2Proof.Machine
end

