-- ==== Sys2Proof/Machine/RelativeBase.lean ====
section
/-! DEFINITION. AdjustRelativeBase (45_relative_base.md). -/

namespace Sys2Proof.Machine

/-- ARB on the core (R140): the operand is read at the old `rb`; the sum is checked (41_arithmetic.md R90). -/
def CoreState.adjustRb (c : CoreState) (p0 : Operand) : Except Cause CoreState :=
  match c.readParam p0 with
  | .error e => .error e
  | .ok a =>
    match c.exact (c.rb.toInt + a.toInt) with
    | .error e => .error e
    | .ok v => .ok ((c.setRb v).advance 2)

/-- ARB (R140): "`relative_base += read(p0)`". -/
def execAdjustRelativeBase (p0 : Operand) (s : State) : Result :=
  finish s (s.core.adjustRb p0)

end Sys2Proof.Machine
end

