-- ==== Sys2Proof/Machine/Dispatch.lean ====
section
/-! DEFINITION. Dispatch on the opcode alone (40_execution_loop.md R76). -/

namespace Sys2Proof.Machine

def exec (i : Instr) (s : State) : Host.Outcome State Fault Refusal :=
  match i with
  | .add p0 p1 dst => Sys2Proof.Machine.execAdd p0 p1 dst s
  | .mul p0 p1 dst => Sys2Proof.Machine.execMul p0 p1 dst s
  | .input dst => Sys2Proof.Machine.execInput dst s
  | .output p0 => Sys2Proof.Machine.execOutput p0 s
  | .jumpIfTrue p0 p1 => Sys2Proof.Machine.execJumpIfTrue p0 p1 s
  | .jumpIfFalse p0 p1 => Sys2Proof.Machine.execJumpIfFalse p0 p1 s
  | .lessThan p0 p1 dst => Sys2Proof.Machine.execLessThan p0 p1 dst s
  | .equals p0 p1 dst => Sys2Proof.Machine.execEquals p0 p1 dst s
  | .adjustRelativeBase p0 => Sys2Proof.Machine.execAdjustRelativeBase p0 s
  | .halt => Sys2Proof.Machine.execHalt s

end Sys2Proof.Machine
end

