-- ==== Sys2Proof/Machine/Fetch.lean ====
section
/-! DEFINITION. Instruction fetch (40_execution_loop.md R70 to R72): the word at `pc`, decoded afresh at every step, then its
operand cells, lowest address first, all of them whether or not the instruction goes on to use them (decision D28). -/

namespace Sys2Proof.Machine

/-- The instruction at `pc`, or the fault of fetching it, in the order of 60_exceptions.md R156 items 1 to 3. -/
def CoreState.fetch (c : CoreState) : Except Cause Instr :=
  match c.memRead c.pc .fetch with
  | .error e => .error e
  | .ok w =>
    match selectOp w with
    | .error _ => .error (.illegalInstruction c.pc w)
    | .ok (op, d) =>
      match c.memReadCells .operand (c.pc + 1) op.operandCount with
      | .error e => .error e
      | .ok raws => .ok (op.build d raws)

/-- The memory with cells stored from `a` on. -/
def Memory.writeCells (m : Memory) (a : Nat) (cells : List I64) : Memory :=
  match cells with
  | [] => m
  | v :: vs => Memory.writeCells (m.write a v) (a + 1) vs

/-- The core with cells stored at its `pc` and its status Running, so that its next step fetches them. -/
def CoreState.placeAtPc (c : CoreState) (cells : List I64) : CoreState :=
  { c with mem := c.mem.writeCells c.pc cells, status := .running }

/-- The platform with its current core the next agent to move: nothing need be said when it is the only one. -/
def State.currentNext (s : State) : State :=
  if s.before.isEmpty && s.after.isEmpty && s.host.script.isEmpty then { s with turns := [] }
  else { s with turns := [.core s.coreNumber] }

end Sys2Proof.Machine
end

