-- ==== Sys2Proof/Machine/Loader.lean ====
section
/-! DEFINITION. The program text the host loads (30_encoding.md R63, 70_reset_and_hazards.md R186): signed decimal integers
separated by commas. Anything else is malformed and refused whole (R161; decision D31). -/

namespace Sys2Proof.Machine

/-- A decimal digit. -/
def digitValue (ch : Char) : Option Nat :=
  if '0'.toNat ≤ ch.toNat ∧ ch.toNat ≤ '9'.toNat then some (ch.toNat - '0'.toNat) else none

/-- Decimal digits read on from `acc`. -/
def digitsValue (acc : Nat) (text : List Char) : Option Nat :=
  match text with
  | [] => some acc
  | ch :: rest =>
    match digitValue ch with
    | none => none
    | some d => digitsValue (10 * acc + d) rest

/-- One or more decimal digits. -/
def naturalValue (text : List Char) : Option Nat :=
  match text with
  | [] => none
  | ch :: rest => digitsValue 0 (ch :: rest)

/-- One token: a signed decimal integer that fits in 64 bits; no `+` sign, no space (R186). Leading zeros are digits like
any other (DESIGN CHOICE, log 29). -/
def tokenValue (text : List Char) : Option I64 :=
  match text with
  | '-' :: rest =>
    match naturalValue rest with
    | none => none
    | some n => toI64 (-(n : Int))
  | rest =>
    match naturalValue rest with
    | none => none
    | some n => toI64 n

/-- The tokens between the commas of a text; an empty text is one empty token. -/
def tokens (text : List Char) : List (List Char) :=
  match text with
  | [] => [[]]
  | ch :: rest =>
    if ch = ',' then [] :: tokens rest
    else
      match tokens rest with
      | [] => [[ch]]
      | t :: ts => (ch :: t) :: ts

/-- Every token's value, or nothing at all: "no partial load". -/
def tokenValues (ts : List (List Char)) : Option (List I64) :=
  match ts with
  | [] => some []
  | t :: rest =>
    match tokenValue t with
    | none => none
    | some v =>
      match tokenValues rest with
      | none => none
      | some vs => some (v :: vs)

/-- The Program of a text (R186): token `k` becomes cell `k`. -/
def parseProgram (text : List Char) : Option (List I64) := tokenValues (tokens text)

end Sys2Proof.Machine
end

