-- ==== Sys2Proof/Machine/HostActions.lean ====
section
/-! DEFINITION. What the host does (60_exceptions.md R174, R177; 42_io.md R103): one action a step, refused when the spec does
not allow it at that moment. The host never writes a constructed core (20_memory.md R44). -/

namespace Sys2Proof.Machine

/-- A core that has ended its run (40_execution_loop.md R79). -/
def CoreState.stopped (c : CoreState) : Bool := decide (c.status ≠ .running)

/-- No core holds the producing end of channel `k`, so the host does (10_state.md R18). -/
def State.hostProduces (s : State) (k : Nat) : Bool := s.cores.all fun c => decide (c.outCh ≠ some k)

/-- No core holds the consuming end of channel `k`, so the host does. -/
def State.hostConsumes (s : State) (k : Nat) : Bool := s.cores.all fun c => decide (c.inCh ≠ some k)

/-- Every core that holds the producing end of channel `k` has stopped (R174). -/
def State.producerStopped (s : State) (k : Nat) : Bool := s.cores.all fun c => decide (c.outCh ≠ some k) || c.stopped

/-- Every core that holds the consuming end of channel `k` has stopped (R174). -/
def State.consumerStopped (s : State) (k : Nat) : Bool := s.cores.all fun c => decide (c.inCh ≠ some k) || c.stopped

/-- The platform with one more thing read by the host. -/
def State.hostGets (s : State) (x : HostItem) : State := { s with host := { s.host with got := s.host.got ++ [x] } }

/-- `load` (R186): a Program, or nothing of a malformed text. -/
def hostLoad (text : List Char) (s : State) : Result :=
  match parseProgram text with
  | none => .refused .malformedText
  | some p => .next { s with host := { s.host with programs := s.host.programs ++ [p] } }

/-- A new channel, whose two ends the host holds. -/
def hostNewChannel (s : State) : Result := .next { s with chans := s.chans ++ [Channel.new] }

/-- May the host give this consuming end to a new core: it holds it and has not dropped it? -/
def State.inCanBeGiven (s : State) (e : Option Nat) : Bool :=
  match e with
  | none => true
  | some k =>
    match s.chans[k]? with
    | none => false
    | some ch => s.hostConsumes k && !ch.consumerDropped

/-- May the host give this producing end to a new core? -/
def State.outCanBeGiven (s : State) (e : Option Nat) : Bool :=
  match e with
  | none => true
  | some k =>
    match s.chans[k]? with
    | none => false
    | some ch => s.hostProduces k && !ch.producerClosed

/-- May both endpoints be given to one new core: ends the host hands out, each once (R184 item 3), of two channels
(10_state.md R17)? -/
def State.endsCanBeGiven (s : State) (inCh outCh : Option Nat) : Bool :=
  s.inCanBeGiven inCh && s.outCanBeGiven outCh && endsApart inCh outCh

/-- Construction (R180 to R182): one more core in the reset state, with ends the host hands out (log 28). -/
def hostConstruct (program : Nat) (params : Params) (inCh outCh : Option Nat) (s : State) : Result :=
  match s.host.programs[program]? with
  | none => .refused .hostForbidden
  | some p =>
    if s.endsCanBeGiven inCh outCh && decide (params.memCap ≤ Config.memCapMax) then
      if constructible params p then .next { s with after := s.after ++ [CoreState.new params p inCh outCh] }
      else .refused .programTooLong
    else .refused .hostForbidden

/-- `run()` (40_execution_loop.md R78): it returns, with no value, once the core is Halted; a Faulted core ends it
abnormally, which the host is told (log 34); until then it waits. The core's steps are its own (R170). -/
def hostRun (i : Nat) (s : State) : Result :=
  match s.cores[i]? with
  | none => .refused .hostForbidden
  | some c =>
    match c.status with
    | .running => .fault .waiting
    | .halted => .next s
    | .faulted e => .next (s.hostGets (.runFaulted i e))

/-- `Produce` by the host (42_io.md R101, R103) on any channel not closed. It may push on a channel whose producing end a core
holds: a late seed of the ring (70_reset_and_hazards.md R191), the release of 95_test_vectors.md P6 (log 35). -/
def hostProduce (k : Nat) (v : I64) (s : State) : Result :=
  match s.chans[k]? with
  | none => .refused .hostForbidden
  | some ch =>
    if ch.producerClosed then .refused .hostForbidden else .next (s.withChan k (ch.produce v))

/-- `CloseProducer` (R174): on an end the host holds, or on the `Out` channel of a core that has stopped; once. -/
def hostCloseProducer (k : Nat) (s : State) : Result :=
  match s.chans[k]? with
  | none => .refused .hostForbidden
  | some ch =>
    if s.producerStopped k && !ch.producerClosed then .next (s.withChan k ch.closeProducer) else .refused .hostForbidden

/-- `DropConsumer` (R174): on an end the host holds, or on the `In` channel of a core that has stopped; once. -/
def hostDropConsumer (k : Nat) (s : State) : Result :=
  match s.chans[k]? with
  | none => .refused .hostForbidden
  | some ch =>
    if s.consumerStopped k && !ch.consumerDropped then .next (s.withChan k ch.dropConsumer) else .refused .hostForbidden

/-- `Consume` by the host ("drains output channel(s)"): it waits on an empty open channel like any consumer (42_io.md R102). -/
def hostDrain (k : Nat) (s : State) : Result :=
  match s.chans[k]? with
  | none => .refused .hostForbidden
  | some ch =>
    if s.hostConsumes k && !ch.consumerDropped then
      match ch.consume with
      | .value v rest => .next ((s.withChan k rest).hostGets (.value k v))
      | .closed => .next (s.hostGets (.closed k))
      | .wouldBlock => .fault .blocked
    else .refused .hostForbidden

/-- A read of something of core `i`, which must have stopped (10_state.md R24; U14). -/
def hostInspect (i : Nat) (read : CoreState → Result) (s : State) : Result :=
  match s.cores[i]? with
  | none => .refused .hostForbidden
  | some c => if c.stopped then read c else .refused .runningCoreRead

/-- The host reads a cell of a stopped core (R24). -/
def hostReadCell (i a : Nat) (s : State) : Result :=
  hostInspect i (fun c =>
    if a < c.params.memCap then .next (s.hostGets (.cell i a (c.mem.read a))) else .refused .hostForbidden) s

/-- The host reads `pc` of a stopped core (40_execution_loop.md R79). -/
def hostReadPc (i : Nat) (s : State) : Result :=
  hostInspect i (fun c => .next (s.hostGets (.pc i c.pc))) s

/-- The host reads `rb` of a stopped core (R79). -/
def hostReadRb (i : Nat) (s : State) : Result :=
  hostInspect i (fun c => .next (s.hostGets (.rb i c.rb))) s

/-- The host reads `last_output` of a stopped core; before any Output there is no number to read (U13). -/
def hostReadLast (i : Nat) (s : State) : Result :=
  hostInspect i (fun c =>
    match c.lastOutput with
    | none => .refused .noLastOutput
    | some v => .next (s.hostGets (.last i v))) s

/-- The host reads `status` of a stopped core (60_exceptions.md R158). -/
def hostReadStatus (i : Nat) (s : State) : Result :=
  hostInspect i (fun c => .next (s.hostGets (.status i c.status))) s

/-- One action of the host (60_exceptions.md R177). -/
def hostAct (a : HostAction) (s : State) : Result :=
  match a with
  | .load text => hostLoad text s
  | .newChannel => hostNewChannel s
  | .construct program params inCh outCh => hostConstruct program params inCh outCh s
  | .run i => hostRun i s
  | .produce k v => hostProduce k v s
  | .closeProducer k => hostCloseProducer k s
  | .dropConsumer k => hostDropConsumer k s
  | .drain k => hostDrain k s
  | .readCell i a => hostReadCell i a s
  | .readPc i => hostReadPc i s
  | .readRb i => hostReadRb i s
  | .readLast i => hostReadLast i s
  | .readStatus i => hostReadStatus i s

/-- One step of the host: the next action of its script. -/
def hostStep (s : State) : Result :=
  match s.host.script with
  | [] => .fault .hostIdle
  | a :: rest => hostAct a { s with host := { s.host with script := rest } }

end Sys2Proof.Machine
end

