-- ==== Sys2Proof/Machine/Schedule.lean ====
section
/-! DEFINITION. One step of one agent, and which agent takes the next one (40_execution_loop.md R70, 60_exceptions.md R170). -/

namespace Sys2Proof.Machine

/-- One step of the current core (R70): it has one only while Running; fetching may fault; else the instruction executes. -/
def coreStep (s : State) : Result :=
  if s.core.status = .running then
    match s.core.fetch with
    | .error e => .next (s.raise e)
    | .ok i => exec i s
  else .fault .stopped

/-- One step of an agent. -/
def move (a : Agent) (s : State) : Result :=
  match a with
  | .host => hostStep s
  | .core j =>
    match s.select j with
    | none => .fault .noSuchCore
    | some t => coreStep t

/-- Does an agent have a step? A stopped or blocked core has none (10_state.md R14, 42_io.md R104), nor has an idle host.
DESIGN CHOICE (log 36, safe): a host whose next scripted action is not allowed at this moment counts as having a step, so it
may be picked, and the platform then answers the refusal, though a core could move. -/
def hasStep (s : State) (a : Agent) : Bool :=
  match move a s with
  | .next _ => true
  | .fault _ => false
  | .refused _ => true

/-- What `run()` of a core comes to (40_execution_loop.md R78). -/
inductive RunEnd where
  /-- The core is Halted: the only normal return. -/
  | returned (s : State)
  /-- The core is Faulted: no normal return. -/
  | faulted (cause : Cause) (s : State)
  /-- The core is blocked: it waits for another agent. -/
  | waiting (s : State)
  /-- The core is still Running after the steps allowed; the machine itself has no step limit. -/
  | unfinished (s : State)
  /-- There is no such core. -/
  | noSuchCore
deriving DecidableEq, Repr

/-- What the status of core `j` says of its run: `none` while it is Running. -/
def State.runEnd? (s : State) (j : Nat) : Option RunEnd :=
  match s.cores[j]? with
  | none => some .noSuchCore
  | some c =>
    match c.status with
    | .running => none
    | .halted => some (.returned s)
    | .faulted e => some (.faulted e s)

/-- `run()` of core `j` on its own, for at most `n` steps (R78): "`Step` while `status == Running`". A run has no bound: it
ends in a way if some `n` shows that end. -/
def State.runCore (s : State) (j n : Nat) : RunEnd :=
  match s.runEnd? j with
  | some r => r
  | none =>
    match n with
    | 0 => .unfinished s
    | n + 1 =>
      match move (.core j) s with
      | .next t => t.runCore j n
      | .fault _ => .waiting s
      | .refused _ => .waiting s

/-- Every agent of the platform: its cores by number, then the host. -/
def State.agents (s : State) : List Agent := (List.range s.cores.length).map Agent.core ++ [.host]

/-- The agents that have a step: any of them may go next (R170). -/
def State.ready (s : State) : List Agent := s.agents.filter (hasStep s)

/-- Why a platform in which no agent has a step has none (40_execution_loop.md R79, 60_exceptions.md R175). -/
def State.endReason (s : State) : Fault :=
  if s.cores.any fun c => decide (c.status = .running) then .deadlock
  else if s.cores.all fun c => decide (c.status = .halted) then .finished
  else .failed

/-- The free choice among several agents (log 4): which one `n` picks. -/
def pickAgent (a : Agent) (others : List Agent) (n : Nat) : Agent :=
  (a :: others).getD (n % (others.length + 1)) a

/-- One step of the platform: of the agent `turns` names; else of the only agent that has a step; else of a freely chosen
one. It has none where no agent has one. -/
def platformStep (s : State) : Result :=
  match s.turns with
  | a :: rest => move a { s with turns := rest }
  | [] =>
    match s.ready with
    | [] => .fault s.endReason
    | [a] => move a s
    | a :: b :: others =>
      move (pickAgent a (b :: others) (Config.schedule s.tick)) { s with tick := s.tick + 1 }

/-- The platform with cells placed where the next step fetches, and its current core the next to move. -/
def State.placeNext (s : State) (cells : List I64) : State :=
  (s.withCore (s.core.placeAtPc cells)).currentNext

end Sys2Proof.Machine
end

