-- ==== Sys2Proof/Machine/Step.lean ====
section
/-! DEFINITION. The step of the machine, and the placing of an instruction where it fetches next. -/

namespace Sys2Proof.Machine

/-- One step of the platform (60_exceptions.md R170). -/
def step (s : State) : Host.Outcome State Fault Refusal := platformStep s

/-- The state with the instruction of bits `w` stored at the current core's `pc`, that core Running and next to move
(log 8, log 23). -/
def State.withFetchWord (s : State) (nbits w : Nat) : State := s.placeNext (tableCells nbits w)

end Sys2Proof.Machine
end

