-- ==== Sys2Proof/Safety.lean ====
section
/-! DEFINITION. What counts as a safe run and a legal state, in the terms the statements use. -/

namespace Sys2Proof.Machine

/-- No core is Faulted: the premise of every claim about a program (60_exceptions.md R158). -/
def State.noFault (s : State) : Prop := ∀ c ∈ s.cores, ∀ e, c.status ≠ .faulted e

/-- Every core reached opcode 99: the only good end (40_execution_loop.md R79, 60_exceptions.md R173). -/
def State.success (s : State) : Prop := ∀ c ∈ s.cores, c.status = .halted

/-- What holds of one core between instructions: its capacity is one (00_scope.md R6), its memory is canonical and lies
within it (20_memory.md R33), its `pc` is at most `2^63` (10_state.md R11). -/
def CoreState.legal (c : CoreState) : Prop :=
  c.params.memCap ≤ Config.memCapMax ∧ c.mem.wf = true ∧ c.mem.below c.params.memCap = true ∧
    c.pc ≤ Config.memCapMax

/-- Every endpoint is an end of a channel that exists, no end is held twice ("a single-writer/single-reader queue by
construction", 10_state.md R18), and no core holds both ends of one channel (R17). -/
def State.wired (s : State) : Prop :=
  (s.cores.filterMap CoreState.inCh).Nodup ∧ (s.cores.filterMap CoreState.outCh).Nodup ∧
    (∀ c ∈ s.cores, ∀ k, c.inCh = some k → k < s.chans.length) ∧
    (∀ c ∈ s.cores, ∀ k, c.outCh = some k → k < s.chans.length) ∧
    ∀ c ∈ s.cores, ∀ k, c.inCh = some k → c.outCh ≠ some k

/-- The ends a Running core holds have not been given up: they are released only once it has stopped
(60_exceptions.md R174). -/
def State.endsLive (s : State) : Prop :=
  ∀ c ∈ s.cores, c.status = .running → ∀ k ch, s.chans[k]? = some ch →
    (c.outCh = some k → ch.producerClosed = false) ∧ (c.inCh = some k → ch.consumerDropped = false)

/-- The invariant of the platform. -/
def State.Inv (s : State) : Prop := (∀ c ∈ s.cores, c.legal) ∧ s.wired ∧ s.endsLive

/-- The four cells from `pc` on: the most an instruction has (30_encoding.md R50, R55). -/
def CoreState.cellsAtPc (c : CoreState) : List I64 :=
  [c.mem.read c.pc, c.mem.read (c.pc + 1), c.mem.read (c.pc + 2), c.mem.read (c.pc + 3)]

/-- The instruction `i` stands at `pc`, whole, within memory. -/
def CoreState.standsAtPc (c : CoreState) (i : Instr) : Prop :=
  c.pc + i.length ≤ c.params.memCap ∧ ∃ rest, decode c.cellsAtPc = .ok (i, rest)

/-- Everything outside the current core is the same: the other cores, the channels, the host, whose turn it is. -/
def State.sameOutside (s t : State) : Prop :=
  t.before = s.before ∧ t.after = s.after ∧ t.chans = s.chans ∧ t.host = s.host ∧ t.turns = s.turns ∧ t.tick = s.tick

/-- The text of a Program (30_encoding.md R63). -/
def programText (p : List I64) : List Char :=
  match p with
  | [] => []
  | [v] => decimal v.toInt
  | v :: w :: vs => decimal v.toInt ++ ',' :: programText (w :: vs)

end Sys2Proof.Machine
end

