-- ==== Sys2Proof/Certificates/Slice0/Obligations.lean ====
section
/-! DEFINITION. The statements for the provers, from the numbered rules of the spec. -/

open Sys2Proof Sys2Proof.Machine

/-! Encoding and decoding (30_encoding.md). -/

/-- Words of the spec's own examples (95_test_vectors.md, S1 to S8, V-DEC) decode to what the spec says they are. -/
def Obligations.WordsDecodeAsTheSpecWritesThem : Prop :=
  decode [1002#64, 4#64, 3#64, 4#64] = .ok (.mul ⟨.position, 4#64⟩ ⟨.immediate, 3#64⟩ ⟨.position, 4#64⟩, []) ∧
  decode [1101#64, 100#64, I64.ofInt (-1), 4#64, 0#64] =
    .ok (.add ⟨.immediate, 100#64⟩ ⟨.immediate, I64.ofInt (-1)⟩ ⟨.position, 4#64⟩, [0#64]) ∧
  decode [3#64, 0#64] = .ok (.input ⟨.position, 0#64⟩, []) ∧
  decode [204#64, I64.ofInt (-1)] = .ok (.output ⟨.relative, I64.ofInt (-1)⟩, []) ∧
  decode [1105#64, 1#64, 4#64] = .ok (.jumpIfTrue ⟨.immediate, 1#64⟩ ⟨.immediate, 4#64⟩, []) ∧
  decode [1006#64, 101#64, 0#64] = .ok (.jumpIfFalse ⟨.position, 101#64⟩ ⟨.immediate, 0#64⟩, []) ∧
  decode [22207#64, 0#64, 1#64, 3#64] =
    .ok (.lessThan ⟨.relative, 0#64⟩ ⟨.relative, 1#64⟩ ⟨.relative, 3#64⟩, []) ∧
  decode [21208#64, 3#64, 1#64, 4#64] =
    .ok (.equals ⟨.relative, 3#64⟩ ⟨.immediate, 1#64⟩ ⟨.relative, 4#64⟩, []) ∧
  decode [109#64, 1#64] = .ok (.adjustRelativeBase ⟨.immediate, 1#64⟩, []) ∧
  decode [1099#64] = .ok (.halt, []) ∧
  decode [0#64] = .error (.unknownOpcode 0) ∧
  decode [98#64, 1#64] = .error (.unknownOpcode 98) ∧
  decode [I64.ofInt (-99)] = .error .negativeWord

/-- R52: the decoder, in the integer arithmetic of the spec. -/
def Obligations.DecoderSplitsDecimalDigits : Prop :=
  ∀ w : I64,
    (w.toInt < 0 → decodeWord w = none) ∧
    (0 ≤ w.toInt → ∃ d, decodeWord w = some d ∧ (d.opcode : Int) = w.toInt % 100 ∧ ∀ k < 5,
      (w.toInt / 100 / 10 ^ k % 10 = 1 → d.slot k = .immediate) ∧
      (w.toInt / 100 / 10 ^ k % 10 = 2 → d.slot k = .relative) ∧
      (w.toInt / 100 / 10 ^ k % 10 ≠ 1 → w.toInt / 100 / 10 ^ k % 10 ≠ 2 → d.slot k = .position))

/-- R66: every word selects an instruction or is illegal, by `w mod 100` alone. -/
def Obligations.OpcodeMapIsTotal : Prop :=
  ∀ w : I64,
    (w.toInt < 0 → selectOp w = .error .negativeWord) ∧
    (0 ≤ w.toInt → (w.toInt % 100 = 0 ∨ 10 ≤ w.toInt % 100 ∧ w.toInt % 100 ≤ 98) →
      selectOp w = .error (.unknownOpcode (w.toInt % 100).toNat)) ∧
    (0 ≤ w.toInt → (1 ≤ w.toInt % 100 ∧ w.toInt % 100 ≤ 9 ∨ w.toInt % 100 = 99) →
      ∃ op d, selectOp w = .ok (op, d) ∧ (op.opcode : Int) = w.toInt % 100)

/-- R55: an instruction takes its word and as many operand cells as its opcode says, each taken whole, and no more than 4
cells in all; two runs of cells whose words agree in `w mod 100` take the same number. -/
def Obligations.LengthIsOfTheOpcodeAlone : Prop :=
  (∀ cells i rest, decode cells = .ok (i, rest) →
    ∃ w raws, cells = w :: raws ++ rest ∧ i.operands.map Operand.raw = raws ∧ i.length = 1 + raws.length ∧
      i.length ≤ 4 ∧ (i.op.opcode : Int) = w.toInt % 100) ∧
  (∀ w w' tail tail' i i' rest rest', w.toInt % 100 = w'.toInt % 100 →
    decode (w :: tail) = .ok (i, rest) → decode (w' :: tail') = .ok (i', rest') → i.length = i'.length)

/-- Decoding the canonical cells of an instruction gives it back, with every mode and every raw operand, and leaves what
follows them. -/
def Obligations.DecodeInvertsEncode : Prop :=
  ∀ (i : Instr) (rest : List I64), decode (encode i ++ rest) = .ok (i, rest)

/-- No instruction's canonical cells begin another's: a run of encoded instructions can be read in one way only. -/
def Obligations.EncodingIsPrefixFree : Prop :=
  ∀ (i j : Instr) (rest rest' : List I64), encode i ++ rest = encode j ++ rest' → i = j ∧ rest = rest'

/-- R59: digits of weight `10^7` and above change nothing, nor do the mode digits of operands an instruction lacks (decisions D5
and D6 of the spec; log 12). -/
def Obligations.UnusedDigitsAreIgnored : Prop :=
  (∀ w w' : I64, 0 ≤ w.toInt → 0 ≤ w'.toInt → w.toInt % 10 ^ 7 = w'.toInt % 10 ^ 7 → decodeWord w = decodeWord w') ∧
  (∀ (op : Op) (d d' : Decoded) (raws : List I64), (∀ k < op.operandCount, d.slot k = d'.slot k) →
    op.build d raws = op.build d' raws)

/-! Fetch, operands and the step (40_execution_loop.md). -/

/-- Fetching at `pc` gives exactly the instruction that the cells from `pc` on decode to, when it lies whole in memory. -/
def Obligations.FetchIsDecodeOfTheCellsAtPc : Prop :=
  ∀ (c : CoreState) (i : Instr), c.fetch = .ok i ↔ c.standsAtPc i

/-- R72, after the checks of R71: all operand cells are read (decision D28 of the spec), lowest first, and the first one beyond
memory faults. -/
def Obligations.FetchFaultsInOrder : Prop :=
  ∀ c : CoreState,
    (c.params.memCap ≤ c.pc → c.fetch = .error (.addressOutOfRange c.pc .fetch)) ∧
    (c.pc < c.params.memCap → ∀ x, selectOp (c.mem.read c.pc) = .error x →
      c.fetch = .error (.illegalInstruction c.pc (c.mem.read c.pc))) ∧
    (c.pc < c.params.memCap → ∀ op d, selectOp (c.mem.read c.pc) = .ok (op, d) →
      (∀ i < op.operandCount, c.params.memCap ≤ c.pc + 1 + i → (∀ j < i, c.pc + 1 + j < c.params.memCap) →
        c.fetch = .error (.addressOutOfRange (c.pc + 1 + i : Nat) .operand)) ∧
      ((∀ i < op.operandCount, c.pc + 1 + i < c.params.memCap) →
        c.fetch = .ok (op.build d ((List.range op.operandCount).map fun i => c.mem.read (c.pc + 1 + i)))))

/-- R74: what a source operand yields in each mode, inside memory and outside. -/
def Obligations.SourceOperandIsRead : Prop :=
  ∀ (c : CoreState) (raw : I64),
    c.readParam ⟨.immediate, raw⟩ = .ok raw ∧
    (0 ≤ raw.toInt ∧ raw.toInt < c.params.memCap →
      c.readParam ⟨.position, raw⟩ = .ok (c.mem.read raw.toInt.toNat)) ∧
    (¬(0 ≤ raw.toInt ∧ raw.toInt < c.params.memCap) →
      c.readParam ⟨.position, raw⟩ = .error (.addressOutOfRange raw.toInt .read)) ∧
    (0 ≤ c.rb.toInt + raw.toInt ∧ c.rb.toInt + raw.toInt < c.params.memCap →
      c.readParam ⟨.relative, raw⟩ = .ok (c.mem.read (c.rb.toInt + raw.toInt).toNat)) ∧
    (¬(0 ≤ c.rb.toInt + raw.toInt ∧ c.rb.toInt + raw.toInt < c.params.memCap) →
      c.readParam ⟨.relative, raw⟩ = .error (.addressOutOfRange (c.rb.toInt + raw.toInt) .read))

/-- R75: the cell a destination operand names in each mode; it is never dereferenced, so no cell of memory takes part but
the instruction word that an Immediate destination's fault records. -/
def Obligations.DestinationOperandNamesACell : Prop :=
  ∀ (c : CoreState) (raw : I64),
    c.writeAddr ⟨.immediate, raw⟩ = .error (.illegalWriteMode c.pc (c.mem.read c.pc)) ∧
    (0 ≤ raw.toInt ∧ raw.toInt < c.params.memCap → c.writeAddr ⟨.position, raw⟩ = .ok raw.toInt.toNat) ∧
    (¬(0 ≤ raw.toInt ∧ raw.toInt < c.params.memCap) →
      c.writeAddr ⟨.position, raw⟩ = .error (.addressOutOfRange raw.toInt .write)) ∧
    (0 ≤ c.rb.toInt + raw.toInt ∧ c.rb.toInt + raw.toInt < c.params.memCap →
      c.writeAddr ⟨.relative, raw⟩ = .ok (c.rb.toInt + raw.toInt).toNat) ∧
    (¬(0 ≤ c.rb.toInt + raw.toInt ∧ c.rb.toInt + raw.toInt < c.params.memCap) →
      c.writeAddr ⟨.relative, raw⟩ = .error (.addressOutOfRange (c.rb.toInt + raw.toInt) .write))

/-- A step runs the instruction that stands at `pc`: of the core whose turn it is, exactly as `exec` does once the turn is
taken; of a core alone on the platform, exactly as `exec` does. -/
def Obligations.StepRunsTheDecodedInstruction : Prop :=
  (∀ (s u : State) (j : Nat) (rest : List Agent) (i : Instr), s.turns = .core j :: rest →
    { s with turns := rest }.select j = some u → u.core.status = .running → u.core.standsAtPc i → step s = exec i u) ∧
  (∀ (s t : State) (i : Instr), s.turns = [] → s.before = [] → s.after = [] → s.host.script = [] →
    s.core.status = .running → s.core.standsAtPc i → exec i s = .next t → step s = .next t)

/-- R71: the faults of fetching the word, taken by the step; of a core alone and of the core whose turn it is. -/
def Obligations.StepTakesTheFetchFault : Prop :=
  ∀ (s u : State) (e : Cause), u.core.status = .running →
    (u.core.params.memCap ≤ u.core.pc ∧ e = .addressOutOfRange u.core.pc .fetch ∨
      u.core.pc < u.core.params.memCap ∧ e = .illegalInstruction u.core.pc (u.core.mem.read u.core.pc) ∧
        ((u.core.mem.read u.core.pc).toInt < 0 ∨ (u.core.mem.read u.core.pc).toInt % 100 = 0 ∨
          10 ≤ (u.core.mem.read u.core.pc).toInt % 100 ∧ (u.core.mem.read u.core.pc).toInt % 100 ≤ 98)) →
    (s = u → s.turns = [] → s.before = [] → s.after = [] → s.host.script = [] → step s = .next (u.raise e)) ∧
    (∀ j rest, s.turns = .core j :: rest → { s with turns := rest }.select j = some u → step s = .next (u.raise e))

/-- A step where no turn is given is the move of an agent that has a step, whichever the free value picks; where a turn is given
it is that agent's move. (Turns are the model's way of leaving the schedule open, log 4.) -/
def Obligations.SomeReadyAgentMoves : Prop :=
  (∀ (s t : State), s.turns = [] → step s = .next t →
    ∃ a tick, a ∈ s.agents ∧ hasStep s a = true ∧ move a { s with tick := tick } = .next t) ∧
  (∀ (s : State) (a : Agent) (rest : List Agent), s.turns = a :: rest → step s = move a { s with turns := rest })

/-! Reset and construction (10_state.md, 70_reset_and_hazards.md). -/

/-- The reset values of R22, of a constructed core and of a new channel. (`last_output` is the spec's decision D14; those of a new
channel the spec marks as derived.) -/
def Obligations.ConstructionLeavesTheResetValues : Prop :=
  (∀ (params : Params) (p : List I64) (inCh outCh : Option Nat) (a : Nat),
    (∀ v, p[a]? = some v → (CoreState.new params p inCh outCh).mem.read a = v) ∧
    (p.length ≤ a → (CoreState.new params p inCh outCh).mem.read a = 0#64) ∧
    (CoreState.new params p inCh outCh).pc = 0 ∧ (CoreState.new params p inCh outCh).rb.toInt = 0 ∧
    (CoreState.new params p inCh outCh).status = .running ∧ (CoreState.new params p inCh outCh).lastOutput = none ∧
    (CoreState.new params p inCh outCh).inCh = inCh ∧ (CoreState.new params p inCh outCh).outCh = outCh) ∧
  Channel.new.q = [] ∧ Channel.new.producerClosed = false ∧ Channel.new.consumerDropped = false

/-- The model's reset (log 2, log 8): one core constructed by `from` from the empty Program, with the largest capacity and
lenient Input. The capacity and the empty Program are the model's choices. An instruction placed there (log 23) is the
first that runs. -/
def Obligations.ResetIsAConstructedCore : Prop :=
  State.solo { memCap := 2 ^ 63, strictInput := false } [] none none [] = some State.reset ∧
  step State.reset = .next (State.reset.raise (.illegalInstruction 0 0#64)) ∧
  ∀ (nbits w : Nat) (i : Instr), decodeTableWord nbits w = some i →
    step (State.reset.withFetchWord nbits w) = exec i (State.reset.withFetchWord nbits w)

/-- The invariant holds at reset. -/
def Obligations.ResetMeetsTheInvariant : Prop := State.reset.Inv

/-- The invariant holds where a ring starts. -/
def Obligations.RingStartMeetsTheInvariant : Prop :=
  ∀ (params : Params) (p : List I64) (phases : Vector I64 Config.ringCores) (s : State),
    State.ring params p phases = some s → s.Inv

/-- R171, R172: the ring has five cores from the same Program, core `i` between channels `i` and `(i + 1) mod 5`; every
channel holds its phase, channel 0 the initial signal 0 after it. -/
def Obligations.RingIsWiredAndSeeded : Prop :=
  ∀ (params : Params) (p : List I64) (phases : Vector I64 Config.ringCores) (s : State),
    State.ring params p phases = some s →
      s.cores.length = 5 ∧ s.chans.length = 5 ∧
      (∀ i < 5, s.cores[i]? = some (CoreState.new params p (some i) (some ((i + 1) % 5)))) ∧
      s.chans[0]? = some { q := [phases[0], 0#64], producerClosed := false, consumerDropped := false } ∧
      s.chans[1]? = some { q := [phases[1]], producerClosed := false, consumerDropped := false } ∧
      s.chans[2]? = some { q := [phases[2]], producerClosed := false, consumerDropped := false } ∧
      s.chans[3]? = some { q := [phases[3]], producerClosed := false, consumerDropped := false } ∧
      s.chans[4]? = some { q := [phases[4]], producerClosed := false, consumerDropped := false }

/-- `run_with_inputs` (R107) starts with the inputs queued in order, closed behind them or not, and an empty output queue;
its result is the output queue once the core has halted. -/
def Obligations.RunWithInputsPreloadsInOrder : Prop :=
  ∀ (params : Params) (p inputs : List I64) (closes : Bool) (s : State),
    State.withInputs params p inputs closes = some s →
      s.core = CoreState.new params p (some 0) (some 1) ∧
      s.chans = [{ q := inputs, producerClosed := closes, consumerDropped := false },
        { q := [], producerClosed := false, consumerDropped := false }] ∧
      ∀ (t : State) (ch : Channel), t.chans[1]? = some ch →
        (t.core.status = .halted → t.outputs = some ch.q) ∧ (t.core.status ≠ .halted → t.outputs = none)

/-! The ten instructions. -/

/-- R91: Add: the encoding, the exact sum, and every fault in its order. (That overflow faults, and the order, are the spec's
decisions D8 and D15.) -/
def Obligations.AddStoresTheExactSum : Prop :=
  ∀ (p0 p1 dst : Operand) (s : State),
    (Instr.add p0 p1 dst).length = 4 ∧
    (∀ w : I64, (∃ d, selectOp w = .ok (.add, d)) ↔ 0 ≤ w.toInt ∧ w.toInt % 100 = 1) ∧
    encodeWord (.add p0 p1 dst) = 1 + 100 * p0.mode.digit + 1000 * p1.mode.digit + 10000 * dst.mode.digit ∧
    (∀ a b v ea, s.core.readParam p0 = .ok a → s.core.readParam p1 = .ok b → v.toInt = a.toInt + b.toInt →
      s.core.writeAddr dst = .ok ea → exec (.add p0 p1 dst) s =
        .next { s with core := { s.core with mem := s.core.mem.write ea v, pc := s.core.pc + 4 } }) ∧
    (∀ e, s.core.readParam p0 = .error e → exec (.add p0 p1 dst) s = .next (s.raise e)) ∧
    (∀ a e, s.core.readParam p0 = .ok a → s.core.readParam p1 = .error e →
      exec (.add p0 p1 dst) s = .next (s.raise e)) ∧
    (∀ a b, s.core.readParam p0 = .ok a → s.core.readParam p1 = .ok b →
      ¬(-2 ^ 63 ≤ a.toInt + b.toInt ∧ a.toInt + b.toInt ≤ 2 ^ 63 - 1) → exec (.add p0 p1 dst) s =
        .next (s.raise (.arithmeticOverflow s.core.pc (s.core.mem.read s.core.pc)))) ∧
    (∀ a b e, s.core.readParam p0 = .ok a → s.core.readParam p1 = .ok b →
      -2 ^ 63 ≤ a.toInt + b.toInt ∧ a.toInt + b.toInt ≤ 2 ^ 63 - 1 → s.core.writeAddr dst = .error e →
      exec (.add p0 p1 dst) s = .next (s.raise e))

/-- R92: Multiply, in the same way (decisions D8 and D15 of the spec). -/
def Obligations.MultiplyStoresTheExactProduct : Prop :=
  ∀ (p0 p1 dst : Operand) (s : State),
    (Instr.mul p0 p1 dst).length = 4 ∧
    (∀ w : I64, (∃ d, selectOp w = .ok (.mul, d)) ↔ 0 ≤ w.toInt ∧ w.toInt % 100 = 2) ∧
    encodeWord (.mul p0 p1 dst) = 2 + 100 * p0.mode.digit + 1000 * p1.mode.digit + 10000 * dst.mode.digit ∧
    (∀ a b v ea, s.core.readParam p0 = .ok a → s.core.readParam p1 = .ok b → v.toInt = a.toInt * b.toInt →
      s.core.writeAddr dst = .ok ea → exec (.mul p0 p1 dst) s =
        .next { s with core := { s.core with mem := s.core.mem.write ea v, pc := s.core.pc + 4 } }) ∧
    (∀ e, s.core.readParam p0 = .error e → exec (.mul p0 p1 dst) s = .next (s.raise e)) ∧
    (∀ a e, s.core.readParam p0 = .ok a → s.core.readParam p1 = .error e →
      exec (.mul p0 p1 dst) s = .next (s.raise e)) ∧
    (∀ a b, s.core.readParam p0 = .ok a → s.core.readParam p1 = .ok b →
      ¬(-2 ^ 63 ≤ a.toInt * b.toInt ∧ a.toInt * b.toInt ≤ 2 ^ 63 - 1) → exec (.mul p0 p1 dst) s =
        .next (s.raise (.arithmeticOverflow s.core.pc (s.core.mem.read s.core.pc)))) ∧
    (∀ a b e, s.core.readParam p0 = .ok a → s.core.readParam p1 = .ok b →
      -2 ^ 63 ≤ a.toInt * b.toInt ∧ a.toInt * b.toInt ≤ 2 ^ 63 - 1 → s.core.writeAddr dst = .error e →
      exec (.mul p0 p1 dst) s = .next (s.raise e))

/-- The corners of Add and Multiply that R93 lists; the spec marks them as derived from R90. -/
def Obligations.ArithmeticCorners : Prop :=
  (∀ a : I64, toI64 (a.toInt + 0) = some a) ∧
  toI64 ((2 ^ 63 - 1) + 1) = none ∧ toI64 (-2 ^ 63 + -1) = none ∧
  toI64 ((2 ^ 63 - 1) + -2 ^ 63) = some (I64.ofInt (-1)) ∧ toI64 (-2 ^ 63 + (2 ^ 63 - 1)) = some (I64.ofInt (-1)) ∧
  (∀ a : I64, toI64 (a.toInt * 0) = some 0#64) ∧ (∀ a : I64, toI64 (0 * a.toInt) = some 0#64) ∧
  (∀ a : I64, toI64 (a.toInt * 1) = some a) ∧
  (∀ a : I64, a.toInt ≠ -2 ^ 63 → ∃ v : I64, toI64 (a.toInt * -1) = some v ∧ v.toInt = -a.toInt) ∧
  toI64 (-2 ^ 63 * -1) = none ∧ toI64 (-2 ^ 63 * 1) = some (I64.ofInt (-2 ^ 63)) ∧
  toI64 (2 ^ 32 * 2 ^ 31) = none ∧ toI64 (2 ^ 32 * -2 ^ 31) = some (I64.ofInt (-2 ^ 63)) ∧
  toI64 (3037000500 * 3037000500) = none ∧ toI64 (3037000499 * 3037000499) = some 9223372030926249001#64 ∧
  (∀ a b v : I64, toI64 (a.toInt * b.toInt) = some v →
    (a.toInt < 0 → b.toInt < 0 → 0 < v.toInt) ∧ (a.toInt < 0 → 0 < b.toInt → v.toInt < 0))

/-- R105: Input, in every state of its channel, lenient and strict (decisions D16 and D17 of the spec). Blocking, which gives the
core no step, is the model's stop `blocked` (log 5). -/
def Obligations.InputTakesTheOldestValue : Prop :=
  ∀ (dst : Operand) (s : State),
    (Instr.input dst).length = 2 ∧
    (∀ w : I64, (∃ d, selectOp w = .ok (.input, d)) ↔ 0 ≤ w.toInt ∧ w.toInt % 100 = 3) ∧
    encodeWord (.input dst) = 3 + 100 * dst.mode.digit ∧
    (∀ e, s.core.writeAddr dst = .error e → exec (.input dst) s = .next (s.raise e)) ∧
    (∀ ea, s.core.writeAddr dst = .ok ea →
      (s.core.inCh = none → s.core.params.strictInput = false →
        exec (.input dst) s = .next { s with core := { s.core with pc := s.core.pc + 2 } }) ∧
      (s.core.inCh = none → s.core.params.strictInput = true →
        exec (.input dst) s = .next (s.raise (.inputUnavailable s.core.pc .noEndpoint))) ∧
      (∀ k ch, s.core.inCh = some k → s.chans[k]? = some ch →
        (∀ v vs, ch.q = v :: vs → exec (.input dst) s =
          .next { s with
            core := { s.core with mem := s.core.mem.write ea v, pc := s.core.pc + 2 }
            chans := s.chans.set k { ch with q := vs } }) ∧
        (ch.q = [] → ch.producerClosed = true → s.core.params.strictInput = false →
          exec (.input dst) s = .next { s with core := { s.core with pc := s.core.pc + 2 } }) ∧
        (ch.q = [] → ch.producerClosed = true → s.core.params.strictInput = true →
          exec (.input dst) s = .next (s.raise (.inputUnavailable s.core.pc .closed))) ∧
        (ch.q = [] → ch.producerClosed = false → exec (.input dst) s = .fault .blocked)))

/-- R106: Output, with no endpoint, a live consumer, a dropped one. -/
def Obligations.OutputProducesAndRecords : Prop :=
  ∀ (p0 : Operand) (s : State),
    (Instr.output p0).length = 2 ∧
    (∀ w : I64, (∃ d, selectOp w = .ok (.output, d)) ↔ 0 ≤ w.toInt ∧ w.toInt % 100 = 4) ∧
    encodeWord (.output p0) = 4 + 100 * p0.mode.digit ∧
    (∀ e, s.core.readParam p0 = .error e → exec (.output p0) s = .next (s.raise e)) ∧
    (∀ v, s.core.readParam p0 = .ok v →
      (s.core.outCh = none → exec (.output p0) s =
        .next { s with core := { s.core with lastOutput := some v, pc := s.core.pc + 2 } }) ∧
      (∀ k ch, s.core.outCh = some k → s.chans[k]? = some ch →
        (ch.consumerDropped = true → exec (.output p0) s =
          .next { s with core := { s.core with lastOutput := some v, pc := s.core.pc + 2 } }) ∧
        (ch.consumerDropped = false → exec (.output p0) s =
          .next { s with
            core := { s.core with lastOutput := some v, pc := s.core.pc + 2 }
            chans := s.chans.set k { ch with q := ch.q ++ [v] } })))

/-- R120: JumpIfTrue. A negative target faults at the jump and any other is taken unchecked (decision D10 of the spec); operand 1
is not resolved when the jump is not taken (decision D12). -/
def Obligations.JumpIfTrueTakesTheTarget : Prop :=
  ∀ (p0 p1 : Operand) (s : State),
    (Instr.jumpIfTrue p0 p1).length = 3 ∧
    (∀ w : I64, (∃ d, selectOp w = .ok (.jumpIfTrue, d)) ↔ 0 ≤ w.toInt ∧ w.toInt % 100 = 5) ∧
    encodeWord (.jumpIfTrue p0 p1) = 5 + 100 * p0.mode.digit + 1000 * p1.mode.digit ∧
    (∀ e, s.core.readParam p0 = .error e → exec (.jumpIfTrue p0 p1) s = .next (s.raise e)) ∧
    (∀ v, s.core.readParam p0 = .ok v →
      (v.toInt = 0 → exec (.jumpIfTrue p0 p1) s = .next { s with core := { s.core with pc := s.core.pc + 3 } }) ∧
      (v.toInt ≠ 0 →
        (∀ e, s.core.readParam p1 = .error e → exec (.jumpIfTrue p0 p1) s = .next (s.raise e)) ∧
        (∀ t, s.core.readParam p1 = .ok t →
          (t.toInt < 0 → exec (.jumpIfTrue p0 p1) s = .next (s.raise (.addressOutOfRange t.toInt .jump))) ∧
          (∀ n : Nat, t.toInt = n → exec (.jumpIfTrue p0 p1) s = .next { s with core := { s.core with pc := n } }))))

/-- R121: JumpIfFalse, in the same way. -/
def Obligations.JumpIfFalseTakesTheTarget : Prop :=
  ∀ (p0 p1 : Operand) (s : State),
    (Instr.jumpIfFalse p0 p1).length = 3 ∧
    (∀ w : I64, (∃ d, selectOp w = .ok (.jumpIfFalse, d)) ↔ 0 ≤ w.toInt ∧ w.toInt % 100 = 6) ∧
    encodeWord (.jumpIfFalse p0 p1) = 6 + 100 * p0.mode.digit + 1000 * p1.mode.digit ∧
    (∀ e, s.core.readParam p0 = .error e → exec (.jumpIfFalse p0 p1) s = .next (s.raise e)) ∧
    (∀ v, s.core.readParam p0 = .ok v →
      (v.toInt ≠ 0 → exec (.jumpIfFalse p0 p1) s = .next { s with core := { s.core with pc := s.core.pc + 3 } }) ∧
      (v.toInt = 0 →
        (∀ e, s.core.readParam p1 = .error e → exec (.jumpIfFalse p0 p1) s = .next (s.raise e)) ∧
        (∀ t, s.core.readParam p1 = .ok t →
          (t.toInt < 0 → exec (.jumpIfFalse p0 p1) s = .next (s.raise (.addressOutOfRange t.toInt .jump))) ∧
          (∀ n : Nat, t.toInt = n → exec (.jumpIfFalse p0 p1) s = .next { s with core := { s.core with pc := n } }))))

/-- R130: LessThan: the encoding, the signed comparison, and every fault in its order (decision D15 of the spec). -/
def Obligations.LessThanStoresOneOrZero : Prop :=
  ∀ (p0 p1 dst : Operand) (s : State),
    (Instr.lessThan p0 p1 dst).length = 4 ∧
    (∀ w : I64, (∃ d, selectOp w = .ok (.lessThan, d)) ↔ 0 ≤ w.toInt ∧ w.toInt % 100 = 7) ∧
    encodeWord (.lessThan p0 p1 dst) = 7 + 100 * p0.mode.digit + 1000 * p1.mode.digit + 10000 * dst.mode.digit ∧
    (∀ a b v ea, s.core.readParam p0 = .ok a → s.core.readParam p1 = .ok b →
      v = (if a.toInt < b.toInt then 1#64 else 0#64) → s.core.writeAddr dst = .ok ea → exec (.lessThan p0 p1 dst) s =
        .next { s with core := { s.core with mem := s.core.mem.write ea v, pc := s.core.pc + 4 } }) ∧
    (∀ e, s.core.readParam p0 = .error e → exec (.lessThan p0 p1 dst) s = .next (s.raise e)) ∧
    (∀ a e, s.core.readParam p0 = .ok a → s.core.readParam p1 = .error e →
      exec (.lessThan p0 p1 dst) s = .next (s.raise e)) ∧
    (∀ a b e, s.core.readParam p0 = .ok a → s.core.readParam p1 = .ok b → s.core.writeAddr dst = .error e →
      exec (.lessThan p0 p1 dst) s = .next (s.raise e))

/-- R131: Equals, in the same way. -/
def Obligations.EqualsStoresOneOrZero : Prop :=
  ∀ (p0 p1 dst : Operand) (s : State),
    (Instr.equals p0 p1 dst).length = 4 ∧
    (∀ w : I64, (∃ d, selectOp w = .ok (.equals, d)) ↔ 0 ≤ w.toInt ∧ w.toInt % 100 = 8) ∧
    encodeWord (.equals p0 p1 dst) = 8 + 100 * p0.mode.digit + 1000 * p1.mode.digit + 10000 * dst.mode.digit ∧
    (∀ a b v ea, s.core.readParam p0 = .ok a → s.core.readParam p1 = .ok b →
      v = (if a = b then 1#64 else 0#64) → s.core.writeAddr dst = .ok ea → exec (.equals p0 p1 dst) s =
        .next { s with core := { s.core with mem := s.core.mem.write ea v, pc := s.core.pc + 4 } }) ∧
    (∀ e, s.core.readParam p0 = .error e → exec (.equals p0 p1 dst) s = .next (s.raise e)) ∧
    (∀ a e, s.core.readParam p0 = .ok a → s.core.readParam p1 = .error e →
      exec (.equals p0 p1 dst) s = .next (s.raise e)) ∧
    (∀ a b e, s.core.readParam p0 = .ok a → s.core.readParam p1 = .ok b → s.core.writeAddr dst = .error e →
      exec (.equals p0 p1 dst) s = .next (s.raise e))

/-- R140: AdjustRelativeBase: the encoding, the checked sum (decisions D2 and D8 of the spec), the faults. -/
def Obligations.AdjustRelativeBaseAdds : Prop :=
  ∀ (p0 : Operand) (s : State),
    (Instr.adjustRelativeBase p0).length = 2 ∧
    (∀ w : I64, (∃ d, selectOp w = .ok (.adjustRelativeBase, d)) ↔ 0 ≤ w.toInt ∧ w.toInt % 100 = 9) ∧
    encodeWord (.adjustRelativeBase p0) = 9 + 100 * p0.mode.digit ∧
    (∀ a v, s.core.readParam p0 = .ok a → v.toInt = s.core.rb.toInt + a.toInt →
      exec (.adjustRelativeBase p0) s = .next { s with core := { s.core with rb := v, pc := s.core.pc + 2 } }) ∧
    (∀ e, s.core.readParam p0 = .error e → exec (.adjustRelativeBase p0) s = .next (s.raise e)) ∧
    (∀ a, s.core.readParam p0 = .ok a →
      ¬(-2 ^ 63 ≤ s.core.rb.toInt + a.toInt ∧ s.core.rb.toInt + a.toInt ≤ 2 ^ 63 - 1) →
      exec (.adjustRelativeBase p0) s =
        .next (s.raise (.arithmeticOverflow s.core.pc (s.core.mem.read s.core.pc))))

/-- R145: Halt sets the status and nothing else, `pc` included (decision D13 of the spec), from any word that selects it, in the
last cell of memory too; a halted core has no step. -/
def Obligations.HaltStopsTheCore : Prop :=
  Instr.halt.length = 1 ∧ (∀ w : I64, (∃ d, selectOp w = .ok (.halt, d)) ↔ 0 ≤ w.toInt ∧ w.toInt % 100 = 99) ∧
  encodeWord .halt = 99 ∧
  (∀ s : State, exec .halt s = .next { s with core := { s.core with status := .halted } }) ∧
  (∀ c : CoreState, c.pc < c.params.memCap → 0 ≤ (c.mem.read c.pc).toInt → (c.mem.read c.pc).toInt % 100 = 99 →
    c.fetch = .ok .halt) ∧
  (∀ (s : State) (j : Nat) (c : CoreState), s.cores[j]? = some c → c.status = .halted →
    move (.core j) s = .fault .stopped ∧ ∀ t, step s = .next t → t.cores[j]? = some c)

/-! Frames. -/

/-- What Add, Multiply, LessThan and Equals leave unchanged: all but one cell, `pc`, and, on a fault, the status alone. -/
def Obligations.ThreeOperandFrame : Prop :=
  ∀ (i : Instr) (p0 p1 dst : Operand) (s t : State),
    (i = .add p0 p1 dst ∨ i = .mul p0 p1 dst ∨ i = .lessThan p0 p1 dst ∨ i = .equals p0 p1 dst) →
    exec i s = .next t →
      s.sameOutside t ∧ t.core.params = s.core.params ∧ t.core.rb = s.core.rb ∧
      t.core.lastOutput = s.core.lastOutput ∧ t.core.inCh = s.core.inCh ∧ t.core.outCh = s.core.outCh ∧
      (∀ ea, s.core.writeAddr dst = .ok ea → ∀ a, a ≠ ea → t.core.mem.read a = s.core.mem.read a) ∧
      (∀ e, s.core.writeAddr dst = .error e → t.core.mem = s.core.mem) ∧
      (t.core.status = s.core.status ∨
        ∃ e, t.core.status = .faulted e ∧ t.core.mem = s.core.mem ∧ t.core.pc = s.core.pc)

/-- What Input leaves unchanged: all but one cell, `pc`, and the queue of its own channel. -/
def Obligations.InputFrame : Prop :=
  ∀ (dst : Operand) (s t : State), exec (.input dst) s = .next t →
    t.before = s.before ∧ t.after = s.after ∧ t.host = s.host ∧ t.turns = s.turns ∧ t.tick = s.tick ∧
    t.core.params = s.core.params ∧ t.core.rb = s.core.rb ∧ t.core.lastOutput = s.core.lastOutput ∧
    t.core.inCh = s.core.inCh ∧ t.core.outCh = s.core.outCh ∧
    (∀ ea, s.core.writeAddr dst = .ok ea → ∀ a, a ≠ ea → t.core.mem.read a = s.core.mem.read a) ∧
    (∀ e, s.core.writeAddr dst = .error e → t.core.mem = s.core.mem) ∧
    (∀ k, s.core.inCh ≠ some k → t.chans[k]? = s.chans[k]?) ∧
    (t.core.status = s.core.status ∨
      ∃ e, t.core.status = .faulted e ∧ t.core.mem = s.core.mem ∧ t.core.pc = s.core.pc ∧ t.chans = s.chans)

/-- What Output, the jumps, AdjustRelativeBase and Halt leave unchanged: all of memory, and every register but those named. -/
def Obligations.NonStoringFrame : Prop :=
  ∀ (i : Instr) (s t : State), i.dst? = none → exec i s = .next t →
    t.before = s.before ∧ t.after = s.after ∧ t.host = s.host ∧ t.turns = s.turns ∧ t.tick = s.tick ∧
    t.core.mem = s.core.mem ∧ t.core.params = s.core.params ∧ t.core.inCh = s.core.inCh ∧
    t.core.outCh = s.core.outCh ∧
    ((∀ p, i ≠ .adjustRelativeBase p) → t.core.rb = s.core.rb) ∧
    ((∀ p, i ≠ .output p) → t.core.lastOutput = s.core.lastOutput ∧ t.chans = s.chans) ∧
    (∀ k, s.core.outCh ≠ some k → t.chans[k]? = s.chans[k]?) ∧
    (i = .halt → t.core.pc = s.core.pc) ∧
    (i ≠ .halt → t.core.status = s.core.status ∨
      ∃ e, t.core.status = .faulted e ∧ t.core.pc = s.core.pc ∧ t.core.rb = s.core.rb ∧
        t.core.lastOutput = s.core.lastOutput ∧ t.chans = s.chans)

/-- A completed storing instruction leaves its result in the cell its destination names: Add, Multiply, LessThan and Equals
what they compute, Input the oldest value of its channel. -/
def Obligations.WrittenCellHoldsTheResult : Prop :=
  ∀ (s t : State) (p0 p1 dst : Operand) (ea : Nat), s.core.mem.wf = true → s.core.status = .running →
    t.core.status = .running → s.core.writeAddr dst = .ok ea →
      (∀ a b, s.core.readParam p0 = .ok a → s.core.readParam p1 = .ok b →
        (exec (.add p0 p1 dst) s = .next t → (t.core.mem.read ea).toInt = a.toInt + b.toInt) ∧
        (exec (.mul p0 p1 dst) s = .next t → (t.core.mem.read ea).toInt = a.toInt * b.toInt) ∧
        (exec (.lessThan p0 p1 dst) s = .next t →
          (t.core.mem.read ea).toInt = if a.toInt < b.toInt then 1 else 0) ∧
        (exec (.equals p0 p1 dst) s = .next t →
          (t.core.mem.read ea).toInt = if a.toInt = b.toInt then 1 else 0)) ∧
      (∀ k ch v vs, s.core.inCh = some k → s.chans[k]? = some ch → ch.q = v :: vs →
        exec (.input dst) s = .next t → t.core.mem.read ea = v)

/-- R12: how each instruction that completes changes `pc`. -/
def Obligations.PcFollowsTheTable : Prop :=
  ∀ (i : Instr) (s t : State), s.core.status = .running → exec i s = .next t →
    (i = .halt → t.core.pc = s.core.pc) ∧
    (t.core.status = .running →
      (∀ p0 p1, i = .jumpIfTrue p0 p1 → ∃ v, s.core.readParam p0 = .ok v ∧
        (v.toInt = 0 → t.core.pc = s.core.pc + 3) ∧
        (v.toInt ≠ 0 → ∃ w, s.core.readParam p1 = .ok w ∧ (t.core.pc : Int) = w.toInt)) ∧
      (∀ p0 p1, i = .jumpIfFalse p0 p1 → ∃ v, s.core.readParam p0 = .ok v ∧
        (v.toInt ≠ 0 → t.core.pc = s.core.pc + 3) ∧
        (v.toInt = 0 → ∃ w, s.core.readParam p1 = .ok w ∧ (t.core.pc : Int) = w.toInt)) ∧
      (i.op ≠ .jumpIfTrue → i.op ≠ .jumpIfFalse → t.core.pc = s.core.pc + 1 + i.op.operandCount))

/-! Whole-machine rules. -/

/-- R158: a fault changes the status of its core and nothing else, and the core never steps again. -/
def Obligations.FaultsArePrecise : Prop :=
  ∀ (s t : State) (j : Nat) (c c' : CoreState) (e : Cause), move (.core j) s = .next t → s.cores[j]? = some c →
    t.cores[j]? = some c' → c'.status = .faulted e →
      c' = { c with status := .faulted e } ∧ t.cores = s.cores.set j c' ∧ t.chans = s.chans ∧ t.host = s.host ∧
      (∀ u : State, u.cores[j]? = some c' → move (.core j) u = .fault .stopped)

/-- Halted and Faulted are terminal: no step of the platform changes anything of a core that is not Running. -/
def Obligations.StoppedCoresNeverChange : Prop :=
  ∀ (s t : State) (j : Nat) (c : CoreState), step s = .next t → s.cores[j]? = some c → c.status ≠ .running →
    t.cores[j]? = some c

/-- A core becomes Halted only by executing Halt. -/
def Obligations.OnlyHaltHalts : Prop :=
  ∀ (s t : State) (j : Nat) (c c' : CoreState), step s = .next t → s.cores[j]? = some c → t.cores[j]? = some c' →
    c.status = .running → c'.status = .halted → c.fetch = .ok .halt ∧ c' = { c with status := .halted }

/-- Cores share nothing but channels: a core's move changes no other core, and no channel it holds no end of. -/
def Obligations.CoresShareOnlyChannels : Prop :=
  ∀ (s t : State) (j : Nat) (c : CoreState), move (.core j) s = .next t → s.cores[j]? = some c →
    (∀ k, k ≠ j → t.cores[k]? = s.cores[k]?) ∧ t.host = s.host ∧
    (∀ k, c.inCh ≠ some k → c.outCh ≠ some k → t.chans[k]? = s.chans[k]?)

/-- What a core does depends on its own state and on the channels it holds an end of, and on nothing else of the platform. -/
def Obligations.CoreDependsOnItsOwnStateAndChannels : Prop :=
  ∀ (s s' t : State) (j : Nat) (c : CoreState), s.cores[j]? = some c → s'.cores[j]? = some c →
    (∀ k, c.inCh = some k ∨ c.outCh = some k → s.chans[k]? = s'.chans[k]?) → move (.core j) s = .next t →
      ∃ t', move (.core j) s' = .next t' ∧ t'.cores[j]? = t.cores[j]? ∧
        ∀ k, c.inCh = some k ∨ c.outCh = some k → t.chans[k]? = t'.chans[k]?

/-- Every step leaves each channel's queue as it was, or with one value more at its tail, or without its oldest; and a
channel once closed or dropped stays so. -/
def Obligations.ChannelsAreFifo : Prop :=
  ∀ (s t : State) (k : Nat) (ch : Channel), step s = .next t → s.chans[k]? = some ch →
    ∃ ch', t.chans[k]? = some ch' ∧
      (ch'.q = ch.q ∨ (∃ v, ch'.q = ch.q ++ [v]) ∨ ∃ v, ch.q = v :: ch'.q) ∧
      (ch.producerClosed = true → ch'.producerClosed = true) ∧
      (ch.consumerDropped = true → ch'.consumerDropped = true ∧ ch'.q.length ≤ ch.q.length)

/-- R104: exactly an Input on an empty open channel blocks, and only once its destination is good. (That a blocked core has no
step is said by the model's stop `blocked`, log 5.) -/
def Obligations.BlockedExactlyOnAnEmptyOpenChannel : Prop :=
  ∀ (i : Instr) (s : State), exec i s = .fault .blocked ↔
    ∃ dst ea k ch, i = .input dst ∧ s.core.writeAddr dst = .ok ea ∧ s.core.inCh = some k ∧ s.chans[k]? = some ch ∧
      ch.q = [] ∧ ch.producerClosed = false

/-- R104: a value produced into the channel lifts the block and is the one stored; closing it lifts the block without one. -/
def Obligations.BlockIsLiftedByAnotherAgent : Prop :=
  ∀ (dst : Operand) (s : State) (ea k : Nat) (ch : Channel) (v : I64), exec (.input dst) s = .fault .blocked →
    s.core.writeAddr dst = .ok ea → s.core.inCh = some k → s.chans[k]? = some ch →
      (ch.consumerDropped = false → ∃ t, exec (.input dst) (s.withChan k (ch.produce v)) = .next t ∧ t.chans = s.chans ∧
        t.core = { s.core with mem := s.core.mem.write ea v, pc := s.core.pc + 2 }) ∧
      (s.core.params.strictInput = false →
        ∃ t, exec (.input dst) (s.withChan k ch.closeProducer) = .next t ∧
          t.core = { s.core with pc := s.core.pc + 2 })

/-- On a wired platform every instruction answers a next state, or blocks; it is never refused. -/
def Obligations.InstructionsOnlyStopBlocked : Prop :=
  ∀ (i : Instr) (s : State), s.wired → (∃ t, exec i s = .next t) ∨ exec i s = .fault .blocked

/-- R79: where no turn is given and the host has nothing to do, the run has ended well exactly when every core is Halted. (The
names of the ends are the model's, log 6.) -/
def Obligations.FinishedExactlyWhenAllHalted : Prop :=
  ∀ s : State, s.turns = [] → s.host.script = [] → (step s = .fault .finished ↔ s.success)

/-- R175: where the platform is deadlocked some core is Running, and every Running core is blocked. (The names of the ends are the
model's, log 6.) -/
def Obligations.DeadlockMeansEveryRunningCoreIsBlocked : Prop :=
  ∀ s : State, s.wired → s.turns = [] → step s = .fault .deadlock →
    (∃ c ∈ s.cores, c.status = .running) ∧
      ∀ j c, s.cores[j]? = some c → c.status = .running → move (.core j) s = .fault .blocked

/-- The host never changes a constructed core. -/
def Obligations.HostNeverWritesACore : Prop :=
  ∀ (s t : State) (j : Nat) (c : CoreState), move .host s = .next t → s.cores[j]? = some c → t.cores[j]? = some c

/-- No step changes a core's parameters or endpoints. -/
def Obligations.EndpointsAndParametersAreFixed : Prop :=
  ∀ (s t : State) (j : Nat) (c : CoreState), step s = .next t → s.cores[j]? = some c →
    ∃ c', t.cores[j]? = some c' ∧ c'.params = c.params ∧ c'.inCh = c.inCh ∧ c'.outCh = c.outCh

/-- Canonical memories with the same cells are the same data. -/
def Obligations.CanonicalMemoriesAreDeterminedByTheirCells : Prop :=
  ∀ m m' : Memory, m.wf = true → m'.wf = true → (∀ a, m.read a = m'.read a) → m = m'

/-! The host (60_exceptions.md, 42_io.md). -/

/-- R101 and R102: the two operations on a channel. -/
def Obligations.ProduceAppendsAndConsumeTakesTheOldest : Prop :=
  (∀ (ch : Channel) (v : I64),
    (ch.consumerDropped = true → ch.produce v = ch) ∧
    (ch.consumerDropped = false → ch.produce v = { ch with q := ch.q ++ [v] })) ∧
  (∀ (ch : Channel) (v : I64) (vs : List I64), ch.q = v :: vs → ch.consume = .value v { ch with q := vs }) ∧
  (∀ ch : Channel, ch.q = [] → ch.producerClosed = true → ch.consume = .closed) ∧
  (∀ ch : Channel, ch.q = [] → ch.producerClosed = false → ch.consume = .wouldBlock)

/-- R174: the host may close a producing end it holds at any time, a core's only once that core has stopped; once. The same
for dropping a consuming end. That a second time is refused is the model's reading (log 25). -/
def Obligations.EndsAreReleasedOnlyWhenAllowed : Prop :=
  ∀ (s : State) (k : Nat) (ch : Channel), s.chans[k]? = some ch →
    ((∀ c ∈ s.cores, c.outCh = some k → c.status ≠ .running) → ch.producerClosed = false →
      hostAct (.closeProducer k) s = .next { s with chans := s.chans.set k { ch with producerClosed := true } }) ∧
    ((∃ c ∈ s.cores, c.outCh = some k ∧ c.status = .running) →
      hostAct (.closeProducer k) s = .refused .hostForbidden) ∧
    (ch.producerClosed = true → hostAct (.closeProducer k) s = .refused .hostForbidden) ∧
    ((∀ c ∈ s.cores, c.inCh = some k → c.status ≠ .running) → ch.consumerDropped = false →
      hostAct (.dropConsumer k) s = .next { s with chans := s.chans.set k { ch with consumerDropped := true } }) ∧
    ((∃ c ∈ s.cores, c.inCh = some k ∧ c.status = .running) →
      hostAct (.dropConsumer k) s = .refused .hostForbidden) ∧
    (ch.consumerDropped = true → hostAct (.dropConsumer k) s = .refused .hostForbidden)

/-- R24, R78, R79: the host reads the cells, `pc`, `rb`, the `last_output` and the status of a stopped core, and of a Running one
nothing; `run()` of a core returns once it is Halted, ends abnormally once it is Faulted, and until then waits. That a read
the host may not do is refused is the model's stop (log 24; U13, U14); that a waiting `run()` is the stop `waiting`, and that
the host is told of a fault and goes on, are the model's choice (log 34). -/
def Obligations.HostReadsOnlyStoppedCores : Prop :=
  (∀ (s : State) (j a : Nat) (c : CoreState), s.cores[j]? = some c →
    (c.status = .running →
      hostAct (.readCell j a) s = .refused .runningCoreRead ∧ hostAct (.readPc j) s = .refused .runningCoreRead ∧
      hostAct (.readRb j) s = .refused .runningCoreRead ∧ hostAct (.readLast j) s = .refused .runningCoreRead ∧
      hostAct (.readStatus j) s = .refused .runningCoreRead) ∧
    (c.status ≠ .running →
      (a < c.params.memCap → hostAct (.readCell j a) s = .next (s.hostGets (.cell j a (c.mem.read a)))) ∧
      hostAct (.readPc j) s = .next (s.hostGets (.pc j c.pc)) ∧
      hostAct (.readRb j) s = .next (s.hostGets (.rb j c.rb)) ∧
      (∀ v, c.lastOutput = some v → hostAct (.readLast j) s = .next (s.hostGets (.last j v))) ∧
      (c.lastOutput = none → hostAct (.readLast j) s = .refused .noLastOutput) ∧
      hostAct (.readStatus j) s = .next (s.hostGets (.status j c.status))) ∧
    (c.status = .running → hostAct (.run j) s = .fault .waiting) ∧
    (c.status = .halted → hostAct (.run j) s = .next s) ∧
    (∀ e, c.status = .faulted e → hostAct (.run j) s = .next (s.hostGets (.runFaulted j e)))) ∧
  (∀ (s t : State) (j n : Nat),
    (s.runCore j n = .returned t → ∃ c, t.cores[j]? = some c ∧ c.status = .halted) ∧
    (∀ e, s.runCore j n = .faulted e t → ∃ c, t.cores[j]? = some c ∧ c.status = .faulted e) ∧
    (s.runCore j n = .waiting t →
      ∃ c, t.cores[j]? = some c ∧ c.status = .running ∧ ∀ u, move (.core j) t ≠ .next u) ∧
    (s.runCore j n = .unfinished t → ∀ m, s.runCore j (n + m) = t.runCore j m))

/-- The host produces on every channel that is not closed (R101), whoever holds its producing end; it drains the consuming ends
it holds (R102), and never takes a value from a channel whose consuming end a core holds. The model's own readings: that a
use of a closed, of a dropped or of a core's consuming end is refused (log 25); that a drain of an empty open channel is
the stop `blocked`, and that the news of closure is kept (log 30); that the host may produce beside the core that holds the
producing end (log 35). -/
def Obligations.HostProducesAndDrainsChannels : Prop :=
  ∀ (s : State) (k : Nat) (v : I64) (ch : Channel), s.chans[k]? = some ch →
    (ch.producerClosed = false → hostAct (.produce k v) s = .next { s with chans := s.chans.set k (ch.produce v) }) ∧
    (ch.producerClosed = true → hostAct (.produce k v) s = .refused .hostForbidden) ∧
    ((∀ c ∈ s.cores, c.inCh ≠ some k) → ch.consumerDropped = false →
      (∀ w ws, ch.q = w :: ws → hostAct (.drain k) s =
        .next { s with
          chans := s.chans.set k { ch with q := ws }
          host := { s.host with got := s.host.got ++ [.value k w] } }) ∧
      (ch.q = [] → ch.producerClosed = true → hostAct (.drain k) s =
        .next { s with host := { s.host with got := s.host.got ++ [.closed k] } }) ∧
      (ch.q = [] → ch.producerClosed = false → hostAct (.drain k) s = .fault .blocked)) ∧
    (ch.consumerDropped = true → hostAct (.drain k) s = .refused .hostForbidden) ∧
    ((∃ c ∈ s.cores, c.inCh = some k) → hostAct (.drain k) s = .refused .hostForbidden)

/-- R173: the result of a network run is core 4's `last_output` once all five cores have halted; before that there is none. -/
def Obligations.RingResultIsLastOutputOfCoreFour : Prop :=
  ∀ (s : State) (c : CoreState), s.cores.length = 5 → s.cores[4]? = some c →
    (s.success → s.ringResult = c.lastOutput) ∧ (¬s.success → s.ringResult = none)

/-- What the host's loading, making of channels and construction do: text that parses makes a Program (R186), malformed text
none (R161); a new channel is empty and open (R22); a Program that fits makes a core in the reset state with the endpoints given
(R182), when each is an end of another channel, not given up and held by no core; one longer than `MEM_CAP` makes none
(R161, decision D29 of the spec). That a construction with other endpoints is refused is the model's reading of R17 and R18
(log 28). -/
def Obligations.ConstructionNeedsAProgramThatFits : Prop :=
  (∀ (s : State) (text : List Char), parseProgram text = none →
    hostAct (.load text) s = .refused .malformedText) ∧
  (∀ (s : State) (text : List Char) (p : List I64), parseProgram text = some p →
    hostAct (.load text) s = .next { s with host := { s.host with programs := s.host.programs ++ [p] } }) ∧
  (∀ s : State, hostAct .newChannel s =
    .next { s with chans := s.chans ++ [{ q := [], producerClosed := false, consumerDropped := false }] }) ∧
  (∀ (s : State) (n : Nat) (p : List I64) (params : Params) (inCh outCh : Option Nat),
    s.host.programs[n]? = some p → params.memCap ≤ 2 ^ 63 →
      (params.memCap < p.length → hostAct (.construct n params none none) s = .refused .programTooLong ∧
        ∀ t, hostAct (.construct n params inCh outCh) s ≠ .next t) ∧
      (p.length ≤ params.memCap →
        (∀ k, inCh = some k → (∃ ch, s.chans[k]? = some ch ∧ ch.consumerDropped = false) ∧
          ∀ c ∈ s.cores, c.inCh ≠ some k) →
        (∀ k, outCh = some k → (∃ ch, s.chans[k]? = some ch ∧ ch.producerClosed = false) ∧
          ∀ c ∈ s.cores, c.outCh ≠ some k) →
        (∀ k, inCh = some k → outCh ≠ some k) →
        hostAct (.construct n params inCh outCh) s =
          .next { s with after := s.after ++ [CoreState.new params p inCh outCh] }) ∧
      (∀ k, (inCh = some k ∧ outCh = some k ∨ inCh = some k ∧ (∃ c ∈ s.cores, c.inCh = some k) ∨
          outCh = some k ∧ ∃ c ∈ s.cores, c.outCh = some k) →
        hostAct (.construct n params inCh outCh) s = .refused .hostForbidden))

/-- A Program written as text (R63) and loaded (R186) is the same Program. -/
def Obligations.ProgramTextRoundTrip : Prop :=
  ∀ p : List I64, p ≠ [] → parseProgram (programText p) = some p

/-- A text is refused whole for one malformed token, wherever between the commas it stands: an empty one (an empty text, a
leading or trailing comma, two commas together), a lone minus sign or one behind other characters, a character that is no
digit and no minus sign (white space, a line end, a `+` sign), an integer outside 64 bits, leading zeros or not.
(Decision D31 of the spec.) -/
def Obligations.MalformedTextIsRefused : Prop :=
  ∀ before token after : List Char, (∀ ch ∈ token, ch ≠ ',') → (before = [] ∨ ∃ x, before = x ++ [',']) →
    (after = [] ∨ ∃ x, after = ',' :: x) →
    (token = [] ∨ token = ['-'] ∨ (∃ x y, x ≠ [] ∧ token = x ++ '-' :: y) ∨
      (∃ ch ∈ token, ch ≠ '-' ∧ ¬('0'.toNat ≤ ch.toNat ∧ ch.toNat ≤ '9'.toNat)) ∨
      (∃ v : Int, ¬(-2 ^ 63 ≤ v ∧ v ≤ 2 ^ 63 - 1) ∧ token = decimal v) ∨
      (∃ digits n, naturalValue digits = some n ∧
        (2 ^ 63 ≤ n ∧ token = digits ∨ 2 ^ 63 < n ∧ token = '-' :: digits))) →
    parseProgram (before ++ token ++ after) = none

/-! Headline results. -/

/-- Every step of the platform keeps the invariant: canonical memory within its capacity, `pc` at most `2^63`, endpoints
that exist and are held once, no core with both ends of one channel, and no end given up under a Running core. -/
def Obligations.StepKeepsTheInvariant : Prop :=
  ∀ s t : State, s.Inv → step s = .next t → t.Inv

/-- R176: the order in which two cores that both have a step take it makes no difference. -/
def Obligations.SchedulesCommute : Prop :=
  ∀ (s s1 s2 : State) (i j : Nat), s.Inv → i ≠ j → move (.core i) s = .next s1 → move (.core j) s = .next s2 →
    ∃ t1 t2, move (.core j) s1 = .next t1 ∧ move (.core i) s2 = .next t2 ∧ t1.cores = t2.cores ∧
      t1.chans = t2.chans ∧ t1.host = t2.host
end

