-- ==== Sys2Proof/Laws/Memory.lean ====
section
/-! SUPPORT. The laws of memory: a read after a write, and that every operation keeps the canonical form. -/

namespace Sys2Proof.Machine

theorem Memory.read_cons (a : Nat) (v : I64) (m : Memory) (b : Nat)
    (h : b = a → v = 0#64 → Memory.read m b = 0#64) :
    Memory.read (Memory.cons a v m) b = if b = a then v else Memory.read m b := by
  unfold Memory.cons
  by_cases hv : v = 0#64
  · subst hv
    by_cases hb : b = a
    · simp [hb] at h ⊢; exact h
    · simp [hb]
  · simp [hv, Memory.read]

/-- An address below every listed one reads 0. -/
theorem Memory.read_of_wfFrom {m : Memory} {lo a : Nat} (h : Memory.wfFrom lo m = true) (ha : a < lo) :
    Memory.read m a = 0#64 := by
  induction m generalizing lo with
  | nil => rfl
  | cons c rest ih =>
    obtain ⟨k, v⟩ := c
    simp only [Memory.wfFrom, Bool.and_eq_true, decide_eq_true_eq] at h
    rw [Memory.read, if_neg (by omega)]
    exact ih h.2 (by omega)

theorem Memory.wfFrom_mono {m : Memory} {lo lo' : Nat} (h : Memory.wfFrom lo m = true) (hlo : lo' ≤ lo) :
    Memory.wfFrom lo' m = true := by
  cases m with
  | nil => rfl
  | cons c rest =>
    simp only [Memory.wfFrom, Bool.and_eq_true, decide_eq_true_eq] at h ⊢
    exact ⟨⟨by omega, h.1.2⟩, h.2⟩

theorem Memory.wfFrom_cons {m : Memory} {a lo : Nat} {v : I64} (h : Memory.wfFrom (a + 1) m = true) (hlo : lo ≤ a) :
    Memory.wfFrom lo (Memory.cons a v m) = true := by
  unfold Memory.cons
  split
  · exact Memory.wfFrom_mono h (by omega)
  · rename_i hv
    simp [Memory.wfFrom, hlo, hv, h]

theorem Memory.wfFrom_write {m : Memory} {lo a : Nat} (v : I64) (h : Memory.wfFrom lo m = true) (ha : lo ≤ a) :
    Memory.wfFrom lo (Memory.write m a v) = true := by
  induction m generalizing lo with
  | nil => exact Memory.wfFrom_cons rfl ha
  | cons c rest ih =>
    obtain ⟨k, x⟩ := c
    have h' := h
    simp only [Memory.wfFrom, Bool.and_eq_true, decide_eq_true_eq] at h
    unfold Memory.write
    split
    · exact Memory.wfFrom_cons (by simp [Memory.wfFrom, h.1.2, h.2]; omega) ha
    · split
      · rename_i hk
        exact Memory.wfFrom_cons (hk ▸ h.2) ha
      · simp [Memory.wfFrom, h.1.1, h.1.2, ih h.2 (by omega)]

/-- A write keeps the canonical form. -/
theorem Memory.wf_write {m : Memory} (a : Nat) (v : I64) (h : m.wf = true) : (m.write a v).wf = true :=
  Memory.wfFrom_write v h (Nat.zero_le a)

theorem Memory.wfFrom_ofCells (a : Nat) (cells : List I64) : Memory.wfFrom a (Memory.ofCells a cells) = true := by
  induction cells generalizing a with
  | nil => rfl
  | cons v vs ih => exact Memory.wfFrom_cons (ih (a + 1)) (Nat.le_refl a)

/-- A loaded Program is in canonical form. -/
theorem Memory.wf_ofCells (cells : List I64) : (Memory.ofCells 0 cells).wf = true := Memory.wfFrom_ofCells 0 cells

/-- Placing cells keeps the canonical form. -/
theorem Memory.wf_writeCells {m : Memory} (a : Nat) (cells : List I64) (h : m.wf = true) :
    (m.writeCells a cells).wf = true := by
  induction cells generalizing m a with
  | nil => exact h
  | cons v vs ih => exact ih (a + 1) (Memory.wf_write a v h)

theorem Memory.read_write_from {m : Memory} {lo : Nat} (h : Memory.wfFrom lo m = true) (a : Nat) (v : I64) (b : Nat) :
    Memory.read (Memory.write m a v) b = if b = a then v else Memory.read m b := by
  induction m generalizing lo with
  | nil => exact Memory.read_cons a v [] b fun _ _ => rfl
  | cons c rest ih =>
    obtain ⟨k, x⟩ := c
    have h' := h
    simp only [Memory.wfFrom, Bool.and_eq_true, decide_eq_true_eq] at h
    unfold Memory.write
    split
    · refine Memory.read_cons a v _ b fun hb _ => ?_
      rw [Memory.read, if_neg (by omega)]
      exact Memory.read_of_wfFrom h.2 (by omega)
    · split
      · rename_i hk
        subst hk
        rw [Memory.read_cons a v rest b fun hb _ => Memory.read_of_wfFrom h.2 (by omega)]
        by_cases hb : b = a
        · simp [hb]
        · simp [hb, Memory.read]
      · simp only [Memory.read, ih h.2]
        by_cases hb : b = k
        · simp [hb]; omega
        · simp [hb]

/-- A read after a write (20_memory.md R34, R38): the value written, there and nowhere else. -/
theorem Memory.read_write {m : Memory} (h : m.wf = true) (a : Nat) (v : I64) (b : Nat) :
    (m.write a v).read b = if b = a then v else m.read b := Memory.read_write_from h a v b

theorem Memory.read_ofCells (a : Nat) (cells : List I64) (b : Nat) :
    Memory.read (Memory.ofCells a cells) b = if b < a then 0#64 else cells.getD (b - a) 0#64 := by
  induction cells generalizing a with
  | nil => simp [Memory.ofCells, Memory.read]
  | cons v vs ih =>
    rw [Memory.ofCells, Memory.read_cons _ _ _ _ fun hb _ =>
      Memory.read_of_wfFrom (Memory.wfFrom_ofCells (a + 1) vs) (by omega), ih]
    by_cases hb : b = a
    · simp [hb]
    · by_cases hlt : b < a
      · simp [hb, hlt]; omega
      · have : b - a = (b - (a + 1)) + 1 := by omega
        rw [if_neg hb, if_neg (by omega), if_neg hlt, this, List.getD_cons_succ]

theorem Memory.below_cons {m : Memory} {cap a : Nat} {v : I64} (h : m.below cap = true) (ha : a < cap) :
    Memory.below cap (Memory.cons a v m) = true := by
  unfold Memory.cons
  split
  · exact h
  · simpa [Memory.below, ha] using h

/-- A write within the capacity lists no address beyond it. -/
theorem Memory.below_write {m : Memory} {cap a : Nat} (v : I64) (h : m.below cap = true) (ha : a < cap) :
    (m.write a v).below cap = true := by
  induction m with
  | nil => exact Memory.below_cons h ha
  | cons c rest ih =>
    obtain ⟨k, x⟩ := c
    have hk : k < cap ∧ Memory.below cap rest = true := by simpa [Memory.below] using h
    unfold Memory.write
    split
    · exact Memory.below_cons h ha
    · split
      · exact Memory.below_cons hk.2 ha
      · have := ih hk.2
        simp only [Memory.below, List.all_cons, Bool.and_eq_true, decide_eq_true_eq] at this ⊢
        exact ⟨hk.1, this⟩

/-- A Program that fits lists no address beyond the capacity. -/
theorem Memory.below_ofCells {cap : Nat} (a : Nat) (cells : List I64) (h : a + cells.length ≤ cap) :
    Memory.below cap (Memory.ofCells a cells) = true := by
  induction cells generalizing a with
  | nil => rfl
  | cons v vs ih =>
    simp only [List.length_cons] at h
    exact Memory.below_cons (ih (a + 1) (by omega)) (by omega)

/-- The memory after reset is in canonical form. -/
theorem State.reset_mem_wf : State.reset.core.mem.wf = true := rfl

end Sys2Proof.Machine
end

