-- ==== Sys2Proof/Laws/Operands.lean ====
section
/-! SUPPORT. What each shared operation on one core can answer: cited instead of unfolding the operation. -/

namespace Sys2Proof.Machine

variable {c : CoreState} {p p0 p1 dst : Operand}

/-- The range check succeeds exactly inside memory (20_memory.md R33). -/
theorem CoreState.checkAddr_ok {ea : Int} {k : AccessKind} {a : Nat} :
    c.checkAddr ea k = .ok a ↔ 0 ≤ ea ∧ ea < c.params.memCap ∧ a = ea.toNat := by
  unfold CoreState.checkAddr
  split
  · rename_i h; simp [h]; exact eq_comm
  · rename_i h; simp; intro h1 h2; exact absurd ⟨h1, h2⟩ h

theorem CoreState.checkAddr_lt {ea : Int} {k : AccessKind} {a : Nat} (h : c.checkAddr ea k = .ok a) :
    a < c.params.memCap := by
  obtain ⟨h0, h1, rfl⟩ := CoreState.checkAddr_ok.1 h; omega

theorem CoreState.checkAddr_error {ea : Int} {k : AccessKind} {e : Cause} :
    c.checkAddr ea k = .error e ↔ ¬(0 ≤ ea ∧ ea < c.params.memCap) ∧ e = .addressOutOfRange ea k := by
  unfold CoreState.checkAddr
  split
  · rename_i h; simp [h]
  · rename_i h; simp [h]; exact eq_comm

theorem CoreState.memRead_ok {ea : Int} {k : AccessKind} {v : I64} :
    c.memRead ea k = .ok v ↔ 0 ≤ ea ∧ ea < c.params.memCap ∧ v = c.mem.read ea.toNat := by
  unfold CoreState.memRead
  split
  · rename_i e h
    have := (CoreState.checkAddr_error.1 h).1
    simp; intro h1 h2; exact absurd ⟨h1, h2⟩ this
  · rename_i a h
    obtain ⟨h0, h1, rfl⟩ := CoreState.checkAddr_ok.1 h
    simp [h0, h1]; exact eq_comm

theorem CoreState.memRead_error {ea : Int} {k : AccessKind} {e : Cause} :
    c.memRead ea k = .error e ↔ ¬(0 ≤ ea ∧ ea < c.params.memCap) ∧ e = .addressOutOfRange ea k := by
  rw [← CoreState.checkAddr_error]
  unfold CoreState.memRead
  split <;> rename_i h <;> rw [h] <;> simp

/-- The cells read are those at consecutive addresses, all of them in memory. -/
theorem CoreState.memReadCells_ok {k : AccessKind} {a n : Nat} {vs : List I64} (h : c.memReadCells k a n = .ok vs) :
    vs = (List.range n).map (fun i => c.mem.read (a + i)) ∧ (n = 0 ∨ a + n ≤ c.params.memCap) := by
  induction n generalizing a vs with
  | zero => simp [CoreState.memReadCells] at h; simp [← h]
  | succ n ih =>
    unfold CoreState.memReadCells at h
    split at h
    · cases h
    · rename_i v hv
      split at h
      · cases h
      · rename_i ws hw
        cases h
        obtain ⟨-, h1, rfl⟩ := CoreState.memRead_ok.1 hv
        obtain ⟨rfl, h2⟩ := ih hw
        refine ⟨?_, ?_⟩
        · rw [List.range_succ_eq_map]
          simp [Nat.add_assoc, Nat.add_comm 1]
        · omega

/-- The first cell that does not exist is the one reported. -/
theorem CoreState.memReadCells_error {k : AccessKind} {a n : Nat} {e : Cause} (h : c.memReadCells k a n = .error e) :
    ∃ i < n, e = .addressOutOfRange ((a + i : Nat) : Int) k ∧ c.params.memCap ≤ a + i ∧
      ∀ j < i, a + j < c.params.memCap := by
  induction n generalizing a with
  | zero => cases h
  | succ n ih =>
    unfold CoreState.memReadCells at h
    split at h
    · rename_i e' hv
      cases h
      obtain ⟨h1, rfl⟩ := CoreState.memRead_error.1 hv
      exact ⟨0, by omega, rfl, by omega, by omega⟩
    · rename_i v hv
      split at h
      · rename_i e' he
        cases h
        obtain ⟨i, hi, rfl, hcap, hlow⟩ := ih he
        obtain ⟨-, h1, -⟩ := CoreState.memRead_ok.1 hv
        refine ⟨i + 1, by omega, by rw [Nat.add_assoc, Nat.add_comm 1 i], by omega, fun j hj => ?_⟩
        rcases j with _ | j
        · omega
        · have := hlow j (by omega); omega
      · cases h

/-- All cells that exist can be read. -/
theorem CoreState.memReadCells_of_le (k : AccessKind) {a n : Nat} (h : n = 0 ∨ a + n ≤ c.params.memCap) :
    c.memReadCells k a n = .ok ((List.range n).map fun i => c.mem.read (a + i)) := by
  cases hr : c.memReadCells k a n with
  | error e =>
    obtain ⟨i, hi, -, hcap, -⟩ := CoreState.memReadCells_error hr
    omega
  | ok vs => rw [(CoreState.memReadCells_ok hr).1]

/-- The address of a destination lies in memory. -/
theorem CoreState.writeAddr_lt {a : Nat} (h : c.writeAddr p = .ok a) : a < c.params.memCap := by
  unfold CoreState.writeAddr at h
  split at h
  · cases h
  · exact CoreState.checkAddr_lt h

theorem CoreState.readTwo_ok {a b : I64} :
    c.readTwo p0 p1 = .ok (a, b) ↔ c.readParam p0 = .ok a ∧ c.readParam p1 = .ok b := by
  unfold CoreState.readTwo
  cases c.readParam p0 <;> cases c.readParam p1 <;> simp

/-- The first source that faults is the one reported. -/
theorem CoreState.readTwo_error {e : Cause} :
    c.readTwo p0 p1 = .error e ↔
      c.readParam p0 = .error e ∨ ∃ a, c.readParam p0 = .ok a ∧ c.readParam p1 = .error e := by
  unfold CoreState.readTwo
  cases c.readParam p0 <;> cases c.readParam p1 <;> simp

theorem CoreState.storeResult_ok {v : I64} {c' : CoreState} :
    c.storeResult dst v = .ok c' ↔ ∃ ea, c.writeAddr dst = .ok ea ∧ c' = (c.store ea v).advance 4 := by
  unfold CoreState.storeResult
  cases c.writeAddr dst <;> simp [eq_comm]

theorem CoreState.storeResult_error {v : I64} {e : Cause} :
    c.storeResult dst v = .error e ↔ c.writeAddr dst = .error e := by
  unfold CoreState.storeResult
  cases c.writeAddr dst <;> simp

end Sys2Proof.Machine
end

