-- ==== Sys2Proof/Laws/State.lean ====
section
/-! SUPPORT. One lemma per field per update of the state, true by rfl, and what the list of cores is after each update. -/

namespace Sys2Proof.Machine

@[simp] theorem CoreState.store_params (c : CoreState) (a : Nat) (v : I64) : (c.store a v).params = c.params := rfl
@[simp] theorem CoreState.store_mem (c : CoreState) (a : Nat) (v : I64) : (c.store a v).mem = c.mem.write a v := rfl
@[simp] theorem CoreState.store_pc (c : CoreState) (a : Nat) (v : I64) : (c.store a v).pc = c.pc := rfl
@[simp] theorem CoreState.store_rb (c : CoreState) (a : Nat) (v : I64) : (c.store a v).rb = c.rb := rfl
@[simp] theorem CoreState.store_status (c : CoreState) (a : Nat) (v : I64) : (c.store a v).status = c.status := rfl
@[simp] theorem CoreState.store_lastOutput (c : CoreState) (a : Nat) (v : I64) : (c.store a v).lastOutput = c.lastOutput := rfl
@[simp] theorem CoreState.store_inCh (c : CoreState) (a : Nat) (v : I64) : (c.store a v).inCh = c.inCh := rfl
@[simp] theorem CoreState.store_outCh (c : CoreState) (a : Nat) (v : I64) : (c.store a v).outCh = c.outCh := rfl

@[simp] theorem CoreState.advance_params (c : CoreState) (k : Nat) : (c.advance k).params = c.params := rfl
@[simp] theorem CoreState.advance_mem (c : CoreState) (k : Nat) : (c.advance k).mem = c.mem := rfl
@[simp] theorem CoreState.advance_pc (c : CoreState) (k : Nat) : (c.advance k).pc = c.pc + k := rfl
@[simp] theorem CoreState.advance_rb (c : CoreState) (k : Nat) : (c.advance k).rb = c.rb := rfl
@[simp] theorem CoreState.advance_status (c : CoreState) (k : Nat) : (c.advance k).status = c.status := rfl
@[simp] theorem CoreState.advance_lastOutput (c : CoreState) (k : Nat) : (c.advance k).lastOutput = c.lastOutput := rfl
@[simp] theorem CoreState.advance_inCh (c : CoreState) (k : Nat) : (c.advance k).inCh = c.inCh := rfl
@[simp] theorem CoreState.advance_outCh (c : CoreState) (k : Nat) : (c.advance k).outCh = c.outCh := rfl

@[simp] theorem CoreState.jump_params (c : CoreState) (t : Nat) : (c.jump t).params = c.params := rfl
@[simp] theorem CoreState.jump_mem (c : CoreState) (t : Nat) : (c.jump t).mem = c.mem := rfl
@[simp] theorem CoreState.jump_pc (c : CoreState) (t : Nat) : (c.jump t).pc = t := rfl
@[simp] theorem CoreState.jump_rb (c : CoreState) (t : Nat) : (c.jump t).rb = c.rb := rfl
@[simp] theorem CoreState.jump_status (c : CoreState) (t : Nat) : (c.jump t).status = c.status := rfl
@[simp] theorem CoreState.jump_lastOutput (c : CoreState) (t : Nat) : (c.jump t).lastOutput = c.lastOutput := rfl
@[simp] theorem CoreState.jump_inCh (c : CoreState) (t : Nat) : (c.jump t).inCh = c.inCh := rfl
@[simp] theorem CoreState.jump_outCh (c : CoreState) (t : Nat) : (c.jump t).outCh = c.outCh := rfl

@[simp] theorem CoreState.setRb_params (c : CoreState) (v : I64) : (c.setRb v).params = c.params := rfl
@[simp] theorem CoreState.setRb_mem (c : CoreState) (v : I64) : (c.setRb v).mem = c.mem := rfl
@[simp] theorem CoreState.setRb_pc (c : CoreState) (v : I64) : (c.setRb v).pc = c.pc := rfl
@[simp] theorem CoreState.setRb_rb (c : CoreState) (v : I64) : (c.setRb v).rb = v := rfl
@[simp] theorem CoreState.setRb_status (c : CoreState) (v : I64) : (c.setRb v).status = c.status := rfl
@[simp] theorem CoreState.setRb_lastOutput (c : CoreState) (v : I64) : (c.setRb v).lastOutput = c.lastOutput := rfl
@[simp] theorem CoreState.setRb_inCh (c : CoreState) (v : I64) : (c.setRb v).inCh = c.inCh := rfl
@[simp] theorem CoreState.setRb_outCh (c : CoreState) (v : I64) : (c.setRb v).outCh = c.outCh := rfl

@[simp] theorem CoreState.setLast_params (c : CoreState) (v : I64) : (c.setLast v).params = c.params := rfl
@[simp] theorem CoreState.setLast_mem (c : CoreState) (v : I64) : (c.setLast v).mem = c.mem := rfl
@[simp] theorem CoreState.setLast_pc (c : CoreState) (v : I64) : (c.setLast v).pc = c.pc := rfl
@[simp] theorem CoreState.setLast_rb (c : CoreState) (v : I64) : (c.setLast v).rb = c.rb := rfl
@[simp] theorem CoreState.setLast_status (c : CoreState) (v : I64) : (c.setLast v).status = c.status := rfl
@[simp] theorem CoreState.setLast_lastOutput (c : CoreState) (v : I64) : (c.setLast v).lastOutput = some v := rfl
@[simp] theorem CoreState.setLast_inCh (c : CoreState) (v : I64) : (c.setLast v).inCh = c.inCh := rfl
@[simp] theorem CoreState.setLast_outCh (c : CoreState) (v : I64) : (c.setLast v).outCh = c.outCh := rfl

@[simp] theorem CoreState.setStatus_params (c : CoreState) (st : Status) : (c.setStatus st).params = c.params := rfl
@[simp] theorem CoreState.setStatus_mem (c : CoreState) (st : Status) : (c.setStatus st).mem = c.mem := rfl
@[simp] theorem CoreState.setStatus_pc (c : CoreState) (st : Status) : (c.setStatus st).pc = c.pc := rfl
@[simp] theorem CoreState.setStatus_rb (c : CoreState) (st : Status) : (c.setStatus st).rb = c.rb := rfl
@[simp] theorem CoreState.setStatus_status (c : CoreState) (st : Status) : (c.setStatus st).status = st := rfl
@[simp] theorem CoreState.setStatus_lastOutput (c : CoreState) (st : Status) : (c.setStatus st).lastOutput = c.lastOutput := rfl
@[simp] theorem CoreState.setStatus_inCh (c : CoreState) (st : Status) : (c.setStatus st).inCh = c.inCh := rfl
@[simp] theorem CoreState.setStatus_outCh (c : CoreState) (st : Status) : (c.setStatus st).outCh = c.outCh := rfl

@[simp] theorem State.withCore_before (s : State) (c : CoreState) : (s.withCore c).before = s.before := rfl
@[simp] theorem State.withCore_core (s : State) (c : CoreState) : (s.withCore c).core = c := rfl
@[simp] theorem State.withCore_after (s : State) (c : CoreState) : (s.withCore c).after = s.after := rfl
@[simp] theorem State.withCore_chans (s : State) (c : CoreState) : (s.withCore c).chans = s.chans := rfl
@[simp] theorem State.withCore_host (s : State) (c : CoreState) : (s.withCore c).host = s.host := rfl
@[simp] theorem State.withCore_turns (s : State) (c : CoreState) : (s.withCore c).turns = s.turns := rfl
@[simp] theorem State.withCore_tick (s : State) (c : CoreState) : (s.withCore c).tick = s.tick := rfl

@[simp] theorem State.withChan_before (s : State) (k : Nat) (ch : Channel) : (s.withChan k ch).before = s.before := rfl
@[simp] theorem State.withChan_core (s : State) (k : Nat) (ch : Channel) : (s.withChan k ch).core = s.core := rfl
@[simp] theorem State.withChan_after (s : State) (k : Nat) (ch : Channel) : (s.withChan k ch).after = s.after := rfl
@[simp] theorem State.withChan_chans (s : State) (k : Nat) (ch : Channel) : (s.withChan k ch).chans = s.chans.set k ch := rfl
@[simp] theorem State.withChan_host (s : State) (k : Nat) (ch : Channel) : (s.withChan k ch).host = s.host := rfl
@[simp] theorem State.withChan_turns (s : State) (k : Nat) (ch : Channel) : (s.withChan k ch).turns = s.turns := rfl
@[simp] theorem State.withChan_tick (s : State) (k : Nat) (ch : Channel) : (s.withChan k ch).tick = s.tick := rfl

@[simp] theorem State.raise_before (s : State) (e : Cause) : (s.raise e).before = s.before := rfl
@[simp] theorem State.raise_core (s : State) (e : Cause) : (s.raise e).core = s.core.setStatus (.faulted e) := rfl
@[simp] theorem State.raise_after (s : State) (e : Cause) : (s.raise e).after = s.after := rfl
@[simp] theorem State.raise_chans (s : State) (e : Cause) : (s.raise e).chans = s.chans := rfl
@[simp] theorem State.raise_host (s : State) (e : Cause) : (s.raise e).host = s.host := rfl
@[simp] theorem State.raise_turns (s : State) (e : Cause) : (s.raise e).turns = s.turns := rfl
@[simp] theorem State.raise_tick (s : State) (e : Cause) : (s.raise e).tick = s.tick := rfl

@[simp] theorem State.hostGets_before (s : State) (x : HostItem) : (s.hostGets x).before = s.before := rfl
@[simp] theorem State.hostGets_core (s : State) (x : HostItem) : (s.hostGets x).core = s.core := rfl
@[simp] theorem State.hostGets_after (s : State) (x : HostItem) : (s.hostGets x).after = s.after := rfl
@[simp] theorem State.hostGets_chans (s : State) (x : HostItem) : (s.hostGets x).chans = s.chans := rfl
@[simp] theorem State.hostGets_host (s : State) (x : HostItem) : (s.hostGets x).host = { s.host with got := s.host.got ++ [x] } := rfl
@[simp] theorem State.hostGets_turns (s : State) (x : HostItem) : (s.hostGets x).turns = s.turns := rfl
@[simp] theorem State.hostGets_tick (s : State) (x : HostItem) : (s.hostGets x).tick = s.tick := rfl

/-! The list of cores. -/

@[simp] theorem State.withChan_cores (s : State) (k : Nat) (ch : Channel) : (s.withChan k ch).cores = s.cores := rfl
@[simp] theorem State.hostGets_cores (s : State) (x : HostItem) : (s.hostGets x).cores = s.cores := rfl

/-- Replacing the current core replaces the core of its number. -/
theorem State.withCore_cores (s : State) (c : CoreState) : (s.withCore c).cores = s.cores.set s.coreNumber c := by
  simp [State.cores, State.coreNumber]

theorem State.cores_coreNumber (s : State) : s.cores[s.coreNumber]? = some s.core := by
  simp [State.cores, State.coreNumber]

theorem State.coreNumber_lt (s : State) : s.coreNumber < s.cores.length := by
  simp [State.cores, State.coreNumber]

/-- The current core after it is replaced. -/
theorem State.withCore_cores_self (s : State) (c : CoreState) : (s.withCore c).cores[s.coreNumber]? = some c :=
  State.cores_coreNumber (s.withCore c)

/-- Any other core after the current one is replaced. -/
theorem State.withCore_cores_other (s : State) (c : CoreState) {j : Nat} (h : j ≠ s.coreNumber) :
    (s.withCore c).cores[j]? = s.cores[j]? := by
  rw [State.withCore_cores, List.getElem?_set_ne (Ne.symm h)]

/-- Everything `select` does: the cores stay, core `j` becomes the current one. -/
theorem State.select_spec {s t : State} {j : Nat} (h : s.select j = some t) :
    t.cores = s.cores ∧ t.coreNumber = j ∧ s.cores[j]? = some t.core ∧ t.chans = s.chans ∧ t.host = s.host ∧
      t.turns = s.turns ∧ t.tick = s.tick := by
  unfold State.select at h
  split at h
  · cases h
  · rename_i c rest hd
    cases h
    have hj : j < s.cores.length := by
      have : (s.cores.drop j).length = rest.length + 1 := by rw [hd]; rfl
      rw [List.length_drop] at this; omega
    refine ⟨?_, ?_, ?_, rfl, rfl, rfl, rfl⟩
    · show s.cores.take j ++ c :: rest = s.cores
      rw [← hd, List.take_append_drop]
    · show (s.cores.take j).length = j
      rw [List.length_take]; omega
    · show s.cores[j]? = some c
      have : (s.cores.drop j)[0]? = some c := by rw [hd]; rfl
      simpa using this

/-- A core that exists can be selected. -/
theorem State.select_of_getElem? {s : State} {j : Nat} {c : CoreState} (h : s.cores[j]? = some c) :
    ∃ t, s.select j = some t ∧ t.core = c := by
  have hd : (s.cores.drop j)[0]? = some c := by simpa using h
  unfold State.select
  split
  · rename_i hn; rw [hn] at hd; cases hd
  · rename_i c' rest hc
    rw [hc] at hd
    exact ⟨_, rfl, by simpa using hd⟩

/-- Selecting the current core changes nothing. -/
theorem State.select_self (s : State) : s.select s.coreNumber = some s := by
  simp [State.select, State.cores, State.coreNumber]

end Sys2Proof.Machine
end

