-- ==== Sys2Proof/Laws/Meanings.lean ====
section
/-! SUPPORT. What each meaning, and so each instruction, can answer: if it answers a next state, then this. -/

namespace Sys2Proof.Machine

variable {c c' : CoreState} {p0 p1 dst : Operand} {s t : State}

/-- `to_i64` answers the same integer, when it is in range. -/
theorem toI64_some {v : Int} {r : I64} (h : toI64 v = some r) : r.toInt = v := by
  unfold toI64 I64.minVal I64.maxVal at h
  split at h
  · cases h
    exact BitVec.toInt_ofInt_eq_self (by decide) (by omega) (by omega)
  · cases h

theorem toI64_toInt (r : I64) : toI64 r.toInt = some r := by
  have h1 := BitVec.le_toInt r
  have h2 := BitVec.toInt_lt (x := r)
  unfold toI64 I64.minVal I64.maxVal
  rw [if_pos (by omega), I64.ofInt, BitVec.ofInt_toInt]

theorem toI64_none {v : Int} : toI64 v = none ↔ ¬(-2 ^ 63 ≤ v ∧ v ≤ 2 ^ 63 - 1) := by
  unfold toI64 I64.minVal I64.maxVal
  split <;> simp_all

theorem CoreState.exact_ok {v : Int} {r : I64} : c.exact v = .ok r ↔ r.toInt = v := by
  unfold CoreState.exact
  split
  · rename_i h
    simp; intro hr; rw [← hr, toI64_toInt] at h; cases h
  · rename_i r' h
    have := toI64_some h
    constructor
    · intro hr; cases hr; exact this
    · intro hr; rw [BitVec.eq_of_toInt_eq (this.trans hr.symm)]

theorem CoreState.exact_error {v : Int} {e : Cause} :
    c.exact v = .error e ↔ ¬(-2 ^ 63 ≤ v ∧ v ≤ 2 ^ 63 - 1) ∧ e = .arithmeticOverflow c.pc c.word := by
  unfold CoreState.exact
  split
  · rename_i h; simp only [toI64_none.1 h, not_false_eq_true, true_and, Except.error.injEq]; exact eq_comm
  · rename_i r h
    have : ¬toI64 v = none := by rw [h]; simp
    rw [toI64_none] at this
    constructor
    · intro he; cases he
    · rintro ⟨h1, -⟩; exact absurd h1 this

theorem CoreState.arith_ok {f : Int → Int → Int} :
    c.arith f p0 p1 dst = .ok c' ↔ ∃ a b v ea, c.readParam p0 = .ok a ∧ c.readParam p1 = .ok b ∧
      v.toInt = f a.toInt b.toInt ∧ c.writeAddr dst = .ok ea ∧ c' = (c.store ea v).advance 4 := by
  unfold CoreState.arith
  constructor
  · intro h
    split at h
    · cases h
    · rename_i a b hr
      split at h
      · cases h
      · rename_i v hv
        obtain ⟨ea, hea, rfl⟩ := CoreState.storeResult_ok.1 h
        obtain ⟨h0, h1⟩ := CoreState.readTwo_ok.1 hr
        exact ⟨a, b, v, ea, h0, h1, CoreState.exact_ok.1 hv, hea, rfl⟩
  · rintro ⟨a, b, v, ea, h0, h1, hv, hea, rfl⟩
    rw [CoreState.readTwo_ok.2 ⟨h0, h1⟩]
    simp only
    rw [CoreState.exact_ok.2 hv]
    exact CoreState.storeResult_ok.2 ⟨ea, hea, rfl⟩

theorem CoreState.compare_ok {f : I64 → I64 → Bool} :
    c.compare f p0 p1 dst = .ok c' ↔ ∃ a b ea, c.readParam p0 = .ok a ∧ c.readParam p1 = .ok b ∧
      c.writeAddr dst = .ok ea ∧ c' = (c.store ea (truthValue (f a b))).advance 4 := by
  unfold CoreState.compare
  constructor
  · intro h
    split at h
    · cases h
    · rename_i a b hr
      obtain ⟨ea, hea, rfl⟩ := CoreState.storeResult_ok.1 h
      obtain ⟨h0, h1⟩ := CoreState.readTwo_ok.1 hr
      exact ⟨a, b, ea, h0, h1, hea, rfl⟩
  · rintro ⟨a, b, ea, h0, h1, hea, rfl⟩
    rw [CoreState.readTwo_ok.2 ⟨h0, h1⟩]
    exact CoreState.storeResult_ok.2 ⟨ea, hea, rfl⟩

theorem CoreState.jumpWhen_ok {cond : I64 → Bool} :
    c.jumpWhen cond p0 p1 = .ok c' ↔ ∃ v, c.readParam p0 = .ok v ∧
      (cond v = false ∧ c' = c.advance 3 ∨
        cond v = true ∧ ∃ w, c.readParam p1 = .ok w ∧ 0 ≤ w.toInt ∧ c' = c.jump w.toInt.toNat) := by
  unfold CoreState.jumpWhen CoreState.setPc
  constructor
  · intro h
    split at h
    · cases h
    · rename_i v hv
      refine ⟨v, hv, ?_⟩
      split at h
      · rename_i hc
        split at h
        · cases h
        · rename_i w hw
          split at h
          · cases h
          · rename_i hn
            cases h
            exact .inr ⟨hc, w, hw, by omega, rfl⟩
      · rename_i hc
        cases h
        exact .inl ⟨by simpa using hc, rfl⟩
  · rintro ⟨v, hv, ⟨hc, rfl⟩ | ⟨hc, w, hw, h0, rfl⟩⟩
    · simp only [hv, hc, Bool.false_eq_true, if_false]
    · simp only [hv, hc, hw, if_true]
      rw [if_neg (by omega)]

theorem CoreState.adjustRb_ok :
    c.adjustRb p0 = .ok c' ↔ ∃ a v, c.readParam p0 = .ok a ∧ v.toInt = c.rb.toInt + a.toInt ∧
      c' = (c.setRb v).advance 2 := by
  unfold CoreState.adjustRb
  constructor
  · intro h
    split at h
    · cases h
    · rename_i a ha
      split at h
      · cases h
      · rename_i v hv
        cases h
        exact ⟨a, v, ha, CoreState.exact_ok.1 hv, rfl⟩
  · rintro ⟨a, v, ha, hv, rfl⟩
    rw [ha]; simp only
    rw [CoreState.exact_ok.2 hv]

/-- An instruction that acts on its core alone completes or faults, and always answers a next state. -/
theorem finish_next {r : Except Cause CoreState} :
    finish s r = .next t ↔ (∃ e, r = .error e ∧ t = s.raise e) ∨ ∃ c, r = .ok c ∧ t = s.withCore c := by
  unfold finish
  cases r <;> simp [eq_comm]

/-- The three answers of `Consume` (42_io.md R102). -/
theorem Channel.consume_value {ch rest : Channel} {v : I64} :
    ch.consume = .value v rest ↔ ∃ vs, ch.q = v :: vs ∧ rest = { ch with q := vs } := by
  unfold Channel.consume
  split
  · rename_i w ws hq
    simp only [Consumed.value.injEq, hq, List.cons.injEq]
    constructor
    · rintro ⟨rfl, rfl⟩; exact ⟨ws, ⟨rfl, rfl⟩, rfl⟩
    · rintro ⟨vs, ⟨rfl, rfl⟩, rfl⟩; exact ⟨rfl, rfl⟩
  · rename_i hq; split <;> simp [hq]

theorem Channel.consume_closed {ch : Channel} :
    ch.consume = .closed ↔ ch.q = [] ∧ ch.producerClosed = true := by
  unfold Channel.consume
  split <;> rename_i hq
  · simp [hq]
  · split <;> simp_all

theorem Channel.consume_wouldBlock {ch : Channel} :
    ch.consume = .wouldBlock ↔ ch.q = [] ∧ ch.producerClosed = false := by
  unfold Channel.consume
  split <;> rename_i hq
  · simp [hq]
  · split <;> simp_all

/-- The lenient or strict end of an Input without a value (42_io.md R105). -/
theorem inputMissing_next {why : NoInput} :
    inputMissing why s = .next t ↔
      s.core.params.strictInput = true ∧ t = s.raise (.inputUnavailable s.core.pc why) ∨
        s.core.params.strictInput = false ∧ t = s.withCore (s.core.advance 2) := by
  unfold inputMissing
  cases s.core.params.strictInput <;> simp [eq_comm]

/-- Everything an Input can do when it answers a next state (42_io.md R105). -/
theorem execInput_next (h : execInput dst s = .next t) :
    (∃ e, t = s.raise e) ∨ t = s.withCore (s.core.advance 2) ∨
      ∃ ea k ch v vs, s.core.writeAddr dst = .ok ea ∧ s.core.inCh = some k ∧ s.chans[k]? = some ch ∧ ch.q = v :: vs ∧
        t = (s.withCore ((s.core.store ea v).advance 2)).withChan k { ch with q := vs } := by
  unfold execInput at h
  split at h
  · cases h; exact .inl ⟨_, rfl⟩
  · rename_i ea hea
    unfold inputTo at h
    split at h
    · rcases inputMissing_next.1 h with ⟨-, rfl⟩ | ⟨-, rfl⟩
      · exact .inl ⟨_, rfl⟩
      · exact .inr (.inl rfl)
    · rename_i k hk
      split at h
      · cases h
      · rename_i ch hch
        split at h
        · rename_i v rest hc
          obtain ⟨vs, hq, rfl⟩ := Channel.consume_value.1 hc
          cases h
          exact .inr (.inr ⟨ea, k, ch, v, vs, hea, hk, hch, hq, rfl⟩)
        · rcases inputMissing_next.1 h with ⟨-, rfl⟩ | ⟨-, rfl⟩
          · exact .inl ⟨_, rfl⟩
          · exact .inr (.inl rfl)
        · cases h

/-- Everything an Output can do when it answers a next state (42_io.md R106). -/
theorem execOutput_next (h : execOutput p0 s = .next t) :
    (∃ e, t = s.raise e) ∨ ∃ v, s.core.readParam p0 = .ok v ∧
      (s.core.outCh = none ∧ t = s.withCore ((s.core.setLast v).advance 2) ∨
        ∃ k ch, s.core.outCh = some k ∧ s.chans[k]? = some ch ∧
          t = (s.withChan k (ch.produce v)).withCore ((s.core.setLast v).advance 2)) := by
  unfold execOutput produceOut at h
  split at h
  · cases h; exact .inl ⟨_, rfl⟩
  · rename_i v hv
    refine .inr ⟨v, hv, ?_⟩
    split at h
    · cases h
    · rename_i u hu
      cases h
      split at hu
      · rename_i ho
        cases hu; exact .inl ⟨ho, rfl⟩
      · rename_i k hk
        split at hu
        · cases hu
        · rename_i ch hch
          cases hu
          exact .inr ⟨k, ch, hk, hch, rfl⟩

/-- What one instruction can do to the core that executes it: nothing to its parameters and endpoints; at most one cell,
within memory, to its memory; to its `pc`, an advance by its length, a jump to a non-negative `I64`, or nothing. -/
structure CoreEffect (i : Instr) (c c' : CoreState) : Prop where
  params : c'.params = c.params
  inCh : c'.inCh = c.inCh
  outCh : c'.outCh = c.outCh
  mem : c'.mem = c.mem ∨ ∃ a v, a < c.params.memCap ∧ c'.mem = c.mem.write a v
  pc : c'.pc = c.pc ∨ c'.pc = c.pc + i.length ∨ ∃ w : I64, 0 ≤ w.toInt ∧ c'.pc = w.toInt.toNat

/-- What one instruction can do to the channels: nothing, one value appended behind its `Out`, or the oldest value taken
from behind its `In`. -/
def ChanEffect (c : CoreState) (chans chans' : List Channel) : Prop :=
  chans' = chans ∨
    (∃ k ch v, c.outCh = some k ∧ chans[k]? = some ch ∧ chans' = chans.set k (ch.produce v)) ∨
    ∃ k ch v vs, c.inCh = some k ∧ chans[k]? = some ch ∧ ch.q = v :: vs ∧ chans' = chans.set k { ch with q := vs }

theorem CoreEffect.raise (i : Instr) (c : CoreState) (e : Cause) : CoreEffect i c (c.setStatus (.faulted e)) :=
  ⟨rfl, rfl, rfl, .inl rfl, .inl rfl⟩

/-- The common end of the instructions that act on their core alone. -/
theorem finish_effect {i : Instr} {r : Except Cause CoreState} (h : finish s r = .next t)
    (hr : ∀ c, r = .ok c → CoreEffect i s.core c) :
    ∃ c' chans', t = { s with core := c', chans := chans' } ∧ CoreEffect i s.core c' ∧ ChanEffect s.core s.chans chans' := by
  rcases finish_next.1 h with ⟨e, -, rfl⟩ | ⟨c, hc, rfl⟩
  · exact ⟨_, s.chans, rfl, .raise i s.core e, .inl rfl⟩
  · exact ⟨c, s.chans, rfl, hr c hc, .inl rfl⟩

/-- EVERYTHING an instruction can do when it answers a next state. -/
theorem exec_effect {i : Instr} (h : exec i s = .next t) :
    ∃ c' chans', t = { s with core := c', chans := chans' } ∧ CoreEffect i s.core c' ∧ ChanEffect s.core s.chans chans' := by
  cases i with
  | add p0 p1 dst =>
    refine finish_effect h fun c hc => ?_
    obtain ⟨a, b, v, ea, -, -, -, hea, rfl⟩ := CoreState.arith_ok.1 hc
    exact ⟨rfl, rfl, rfl, .inr ⟨ea, v, CoreState.writeAddr_lt hea, rfl⟩, .inr (.inl rfl)⟩
  | mul p0 p1 dst =>
    refine finish_effect h fun c hc => ?_
    obtain ⟨a, b, v, ea, -, -, -, hea, rfl⟩ := CoreState.arith_ok.1 hc
    exact ⟨rfl, rfl, rfl, .inr ⟨ea, v, CoreState.writeAddr_lt hea, rfl⟩, .inr (.inl rfl)⟩
  | input dst =>
    rcases execInput_next h with ⟨e, rfl⟩ | rfl | ⟨ea, k, ch, v, vs, hea, hk, hch, hq, rfl⟩
    · exact ⟨_, s.chans, rfl, .raise _ s.core e, .inl rfl⟩
    · exact ⟨_, s.chans, rfl, ⟨rfl, rfl, rfl, .inl rfl, .inr (.inl rfl)⟩, .inl rfl⟩
    · exact ⟨_, _, rfl, ⟨rfl, rfl, rfl, .inr ⟨ea, v, CoreState.writeAddr_lt hea, rfl⟩, .inr (.inl rfl)⟩,
        .inr (.inr ⟨k, ch, v, vs, hk, hch, hq, rfl⟩)⟩
  | output p0 =>
    rcases execOutput_next h with ⟨e, rfl⟩ | ⟨v, -, ⟨-, rfl⟩ | ⟨k, ch, hk, hch, rfl⟩⟩
    · exact ⟨_, s.chans, rfl, .raise _ s.core e, .inl rfl⟩
    · exact ⟨_, s.chans, rfl, ⟨rfl, rfl, rfl, .inl rfl, .inr (.inl rfl)⟩, .inl rfl⟩
    · exact ⟨_, _, rfl, ⟨rfl, rfl, rfl, .inl rfl, .inr (.inl rfl)⟩, .inr (.inl ⟨k, ch, v, hk, hch, rfl⟩)⟩
  | jumpIfTrue p0 p1 =>
    refine finish_effect h fun c hc => ?_
    obtain ⟨v, -, ⟨-, rfl⟩ | ⟨-, w, -, hw, rfl⟩⟩ := CoreState.jumpWhen_ok.1 hc
    · exact ⟨rfl, rfl, rfl, .inl rfl, .inr (.inl rfl)⟩
    · exact ⟨rfl, rfl, rfl, .inl rfl, .inr (.inr ⟨w, hw, rfl⟩)⟩
  | jumpIfFalse p0 p1 =>
    refine finish_effect h fun c hc => ?_
    obtain ⟨v, -, ⟨-, rfl⟩ | ⟨-, w, -, hw, rfl⟩⟩ := CoreState.jumpWhen_ok.1 hc
    · exact ⟨rfl, rfl, rfl, .inl rfl, .inr (.inl rfl)⟩
    · exact ⟨rfl, rfl, rfl, .inl rfl, .inr (.inr ⟨w, hw, rfl⟩)⟩
  | lessThan p0 p1 dst =>
    refine finish_effect h fun c hc => ?_
    obtain ⟨a, b, ea, -, -, hea, rfl⟩ := CoreState.compare_ok.1 hc
    exact ⟨rfl, rfl, rfl, .inr ⟨ea, _, CoreState.writeAddr_lt hea, rfl⟩, .inr (.inl rfl)⟩
  | equals p0 p1 dst =>
    refine finish_effect h fun c hc => ?_
    obtain ⟨a, b, ea, -, -, hea, rfl⟩ := CoreState.compare_ok.1 hc
    exact ⟨rfl, rfl, rfl, .inr ⟨ea, _, CoreState.writeAddr_lt hea, rfl⟩, .inr (.inl rfl)⟩
  | adjustRelativeBase p0 =>
    refine finish_effect h fun c hc => ?_
    obtain ⟨a, v, -, -, rfl⟩ := CoreState.adjustRb_ok.1 hc
    exact ⟨rfl, rfl, rfl, .inl rfl, .inr (.inl rfl)⟩
  | halt =>
    cases h
    exact ⟨_, s.chans, rfl, ⟨rfl, rfl, rfl, .inl rfl, .inl rfl⟩, .inl rfl⟩

end Sys2Proof.Machine
end

