-- ==== Sys2Proof/Laws/PerInstr.lean ====
section
/-! SUPPORT. A property of every instruction as syntax, said once per constructor. -/

namespace Sys2Proof.Laws.EncodedLength

/-- The canonical encoding has the length of the instruction (30_encoding.md R55), and its word has at most five decimal
digits (R62). -/
def Statement (i : Instr) : Prop := (encode i).length = i.length ∧ encodeWord i < 100000

/-- The mode digits of `n` operands make a number of `n` decimal digits. -/
theorem modesValue_lt (ps : List Operand) : modesValue ps < 10 ^ ps.length := by
  induction ps with
  | nil => exact Nat.one_pos
  | cons p ps ih =>
    have hd : p.mode.digit ≤ 2 := by cases p.mode <;> decide
    simp only [modesValue, List.length_cons, Nat.pow_succ]
    omega

/-- A word of at most three mode digits and an opcode below 100 has at most five digits. -/
theorem encodeWord_lt (i : Instr) (h : i.operands.length ≤ 3) : encodeWord i < 100000 := by
  have h1 := modesValue_lt i.operands
  have h2 : 10 ^ i.operands.length ≤ 10 ^ 3 := Nat.pow_le_pow_right (by omega) h
  have h3 : i.op.opcode < 100 := by cases i.op <;> decide
  unfold encodeWord
  omega

theorem add (p0 p1 dst : Operand) : Statement (.add p0 p1 dst) := ⟨rfl, encodeWord_lt _ (Nat.le_refl 3)⟩

theorem mul (p0 p1 dst : Operand) : Statement (.mul p0 p1 dst) := ⟨rfl, encodeWord_lt _ (Nat.le_refl 3)⟩

theorem input (dst : Operand) : Statement (.input dst) := ⟨rfl, encodeWord_lt _ (Nat.le_add_left 1 2)⟩

theorem output (p0 : Operand) : Statement (.output p0) := ⟨rfl, encodeWord_lt _ (Nat.le_add_left 1 2)⟩

theorem jumpIfTrue (p0 p1 : Operand) : Statement (.jumpIfTrue p0 p1) := ⟨rfl, encodeWord_lt _ (Nat.le_succ 2)⟩

theorem jumpIfFalse (p0 p1 : Operand) : Statement (.jumpIfFalse p0 p1) := ⟨rfl, encodeWord_lt _ (Nat.le_succ 2)⟩

theorem lessThan (p0 p1 dst : Operand) : Statement (.lessThan p0 p1 dst) := ⟨rfl, encodeWord_lt _ (Nat.le_refl 3)⟩

theorem equals (p0 p1 dst : Operand) : Statement (.equals p0 p1 dst) := ⟨rfl, encodeWord_lt _ (Nat.le_refl 3)⟩

theorem adjustRelativeBase (p0 : Operand) : Statement (.adjustRelativeBase p0) := ⟨rfl, encodeWord_lt _ (Nat.le_add_left 1 2)⟩

theorem halt : Statement .halt := ⟨rfl, encodeWord_lt _ (Nat.zero_le 3)⟩

end Sys2Proof.Laws.EncodedLength
end

