-- ==== Sys2Proof/Laws/Steps.lean ====
section
/-! SUPPORT. What fetching, a core's step, the host's step and the step of the platform can answer. -/

namespace Sys2Proof.Machine

variable {s t u : State} {c : CoreState}

/-- The instruction built has the operation it was built for, so its length is that operation's (30_encoding.md R55). -/
@[simp] theorem Op.build_op (op : Op) (d : Decoded) (raws : List I64) : (op.build d raws).op = op := by
  cases op <;> rfl

@[simp] theorem Op.build_length (op : Op) (d : Decoded) (raws : List I64) :
    (op.build d raws).length = 1 + op.operandCount := by rw [Instr.length, Op.build_op]

/-- A fetch that succeeds: the word is legal and the word and its operand cells are in memory (40_execution_loop.md R71, R72). -/
theorem CoreState.fetch_ok {i : Instr} :
    c.fetch = .ok i ↔ c.pc < c.params.memCap ∧ ∃ op d, selectOp (c.mem.read c.pc) = .ok (op, d) ∧
      c.pc + 1 + op.operandCount ≤ c.params.memCap ∧
      i = op.build d ((List.range op.operandCount).map fun j => c.mem.read (c.pc + 1 + j)) := by
  unfold CoreState.fetch
  constructor
  · intro h
    split at h
    · cases h
    · rename_i w hw
      obtain ⟨-, hpc, rfl⟩ := CoreState.memRead_ok.1 hw
      split at h
      · cases h
      · rename_i op d hs
        split at h
        · cases h
        · rename_i raws hr
          cases h
          obtain ⟨rfl, hle⟩ := CoreState.memReadCells_ok hr
          exact ⟨by omega, op, d, by simpa using hs, by omega, rfl⟩
  · rintro ⟨hpc, op, d, hs, hle, rfl⟩
    have hw : c.memRead c.pc .fetch = .ok (c.mem.read c.pc) := CoreState.memRead_ok.2 ⟨by omega, by omega, by simp⟩
    rw [hw]; simp only
    rw [hs]; simp only
    rw [CoreState.memReadCells_of_le .operand (.inr hle)]

theorem CoreState.fetch_length {i : Instr} (h : c.fetch = .ok i) : c.pc + i.length ≤ c.params.memCap := by
  obtain ⟨-, op, d, -, hle, rfl⟩ := CoreState.fetch_ok.1 h
  rw [Op.build_length]; omega

/-- Everything a core's step can do when it answers a next state (40_execution_loop.md R70). -/
theorem coreStep_next (h : coreStep s = .next t) :
    s.core.status = .running ∧
      ((∃ e, s.core.fetch = .error e ∧ t = s.raise e) ∨ ∃ i, s.core.fetch = .ok i ∧ exec i s = .next t) := by
  unfold coreStep at h
  split at h
  · rename_i hr
    refine ⟨hr, ?_⟩
    split at h
    · rename_i e he; cases h; exact .inl ⟨e, he, rfl⟩
    · rename_i i hi; exact .inr ⟨i, hi, h⟩
  · cases h

/-- The same, said of the core and the channels. -/
theorem coreStep_effect (h : coreStep s = .next t) :
    s.core.status = .running ∧ ∃ c' chans' i, t = { s with core := c', chans := chans' } ∧ CoreEffect i s.core c' ∧
      ChanEffect s.core s.chans chans' ∧ (c'.pc = s.core.pc ∨ s.core.pc + i.length ≤ s.core.params.memCap) := by
  obtain ⟨hr, ⟨e, -, rfl⟩ | ⟨i, hi, hx⟩⟩ := coreStep_next h
  · exact ⟨hr, _, s.chans, .halt, rfl, .raise _ _ e, .inl rfl, .inl rfl⟩
  · obtain ⟨c', chans', rfl, hc, hch⟩ := exec_effect hx
    exact ⟨hr, c', chans', i, rfl, hc, hch, .inr (CoreState.fetch_length hi)⟩

/-- A core's move: it becomes the current core and takes its step. -/
theorem move_core_next {j : Nat} (h : move (.core j) s = .next t) :
    ∃ u, s.select j = some u ∧ coreStep u = .next t := by
  simp only [move] at h
  split at h
  · cases h
  · rename_i u hu; exact ⟨u, hu, h⟩

theorem move_core_of_select {j : Nat} (h : s.select j = some u) : move (.core j) s = coreStep u := by
  simp only [move, h]

/-- What a core's move does to the platform: core `j` and at most one channel change. -/
theorem move_core_effect {j : Nat} (h : move (.core j) s = .next t) :
    ∃ c c' i, s.cores[j]? = some c ∧ c.status = .running ∧ t.cores = s.cores.set j c' ∧ CoreEffect i c c' ∧
      ChanEffect c s.chans t.chans ∧ (c'.pc = c.pc ∨ c.pc + i.length ≤ c.params.memCap) ∧ t.host = s.host ∧
      t.turns = s.turns ∧ t.tick = s.tick := by
  obtain ⟨u, hu, hs⟩ := move_core_next h
  obtain ⟨hcores, hnum, hget, hch, hhost, hturns, htick⟩ := State.select_spec hu
  obtain ⟨hr, c', chans', i, rfl, hc, hce, hpc⟩ := coreStep_effect hs
  refine ⟨u.core, c', i, hget, hr, ?_, hc, hch ▸ hce, hpc, hhost, hturns, htick⟩
  rw [← hcores, ← hnum]
  exact State.withCore_cores u c'

/-- What the host can do to cores and channels in one step (60_exceptions.md R177). -/
inductive HostEffect (s t : State) : Prop
  | quiet (hcores : t.cores = s.cores) (hchans : t.chans = s.chans)
  | newChannel (hcores : t.cores = s.cores) (hchans : t.chans = s.chans ++ [Channel.new])
  | construct (params : Params) (p : List I64) (inCh outCh : Option Nat) (hgive : s.endsCanBeGiven inCh outCh = true)
      (hfit : constructible params p = true)
      (hcores : t.cores = s.cores ++ [CoreState.new params p inCh outCh]) (hchans : t.chans = s.chans)
  | produce (k : Nat) (ch : Channel) (v : I64) (hch : s.chans[k]? = some ch) (hopen : ch.producerClosed = false)
      (hcores : t.cores = s.cores) (hchans : t.chans = s.chans.set k (ch.produce v))
  | closeProducer (k : Nat) (ch : Channel) (hch : s.chans[k]? = some ch) (hold : s.producerStopped k = true)
      (hcores : t.cores = s.cores) (hchans : t.chans = s.chans.set k ch.closeProducer)
  | dropConsumer (k : Nat) (ch : Channel) (hch : s.chans[k]? = some ch) (hold : s.consumerStopped k = true)
      (hcores : t.cores = s.cores) (hchans : t.chans = s.chans.set k ch.dropConsumer)
  | drain (k : Nat) (ch : Channel) (v : I64) (vs : List I64) (hch : s.chans[k]? = some ch)
      (hold : s.hostConsumes k = true) (hq : ch.q = v :: vs) (hcores : t.cores = s.cores)
      (hchans : t.chans = s.chans.set k { ch with q := vs })

theorem hostInspect_next {i : Nat} {read : CoreState → Result} (h : hostInspect i read s = .next t) :
    ∃ c, s.cores[i]? = some c ∧ c.stopped = true ∧ read c = .next t := by
  unfold hostInspect at h
  split at h
  · cases h
  · rename_i c hc
    split at h
    · rename_i hs; exact ⟨c, hc, hs, h⟩
    · cases h

/-- EVERYTHING a host action can do when it answers a next state. -/
theorem hostAct_effect {a : HostAction} (h : hostAct a s = .next t) :
    HostEffect s t ∧ t.turns = s.turns ∧ t.tick = s.tick := by
  cases a with
  | load text =>
    simp only [hostAct, hostLoad] at h
    split at h
    · cases h
    · cases h; exact ⟨.quiet rfl rfl, rfl, rfl⟩
  | newChannel => cases h; exact ⟨.newChannel rfl rfl, rfl, rfl⟩
  | construct program params inCh outCh =>
    simp only [hostAct, hostConstruct] at h
    split at h
    · cases h
    · rename_i p hp
      split at h
      · rename_i hg
        split at h
        · rename_i hf
          cases h
          simp only [Bool.and_eq_true] at hg
          exact ⟨.construct params p inCh outCh hg.1 hf (by simp [State.cores]) rfl, rfl, rfl⟩
        · cases h
      · cases h
  | run i =>
    simp only [hostAct, hostRun] at h
    split at h
    · cases h
    · split at h
      · cases h
      · cases h; exact ⟨.quiet rfl rfl, rfl, rfl⟩
      · cases h; exact ⟨.quiet rfl rfl, rfl, rfl⟩
  | produce k v =>
    simp only [hostAct, hostProduce] at h
    split at h
    · cases h
    · rename_i ch hch
      split at h
      · cases h
      · rename_i hg
        cases h
        exact ⟨.produce k ch v hch (by simpa using hg) rfl rfl, rfl, rfl⟩
  | closeProducer k =>
    simp only [hostAct, hostCloseProducer] at h
    split at h
    · cases h
    · rename_i ch hch
      split at h
      · rename_i hg
        cases h
        simp only [Bool.and_eq_true] at hg
        exact ⟨.closeProducer k ch hch hg.1 rfl rfl, rfl, rfl⟩
      · cases h
  | dropConsumer k =>
    simp only [hostAct, hostDropConsumer] at h
    split at h
    · cases h
    · rename_i ch hch
      split at h
      · rename_i hg
        cases h
        simp only [Bool.and_eq_true] at hg
        exact ⟨.dropConsumer k ch hch hg.1 rfl rfl, rfl, rfl⟩
      · cases h
  | drain k =>
    simp only [hostAct, hostDrain] at h
    split at h
    · cases h
    · rename_i ch hch
      split at h
      · rename_i hg
        simp only [Bool.and_eq_true] at hg
        split at h
        · rename_i v rest hc
          obtain ⟨vs, hq, rfl⟩ := Channel.consume_value.1 hc
          cases h
          exact ⟨.drain k ch v vs hch hg.1 hq rfl rfl, rfl, rfl⟩
        · cases h; exact ⟨.quiet rfl rfl, rfl, rfl⟩
        · cases h
      · cases h
  | readCell i a =>
    obtain ⟨c, -, -, hc⟩ := hostInspect_next h
    split at hc
    · cases hc; exact ⟨.quiet rfl rfl, rfl, rfl⟩
    · cases hc
  | readPc i =>
    obtain ⟨c, -, -, hc⟩ := hostInspect_next h
    cases hc; exact ⟨.quiet rfl rfl, rfl, rfl⟩
  | readRb i =>
    obtain ⟨c, -, -, hc⟩ := hostInspect_next h
    cases hc; exact ⟨.quiet rfl rfl, rfl, rfl⟩
  | readLast i =>
    obtain ⟨c, -, -, hc⟩ := hostInspect_next h
    split at hc
    · cases hc
    · cases hc; exact ⟨.quiet rfl rfl, rfl, rfl⟩
  | readStatus i =>
    obtain ⟨c, -, -, hc⟩ := hostInspect_next h
    cases hc; exact ⟨.quiet rfl rfl, rfl, rfl⟩

/-- Everything the host's step can do when it answers a next state. -/
theorem hostStep_effect (h : hostStep s = .next t) : HostEffect s t ∧ t.turns = s.turns ∧ t.tick = s.tick := by
  unfold hostStep at h
  split at h
  · cases h
  · rename_i a rest hs
    obtain ⟨he, h1, h2⟩ := hostAct_effect h
    refine ⟨?_, h1, h2⟩
    cases he with
    | quiet a b => exact .quiet a b
    | newChannel a b => exact .newChannel a b
    | construct params p i o hg hf a b => exact .construct params p i o hg hf a b
    | produce k ch v a b c d => exact .produce k ch v a b c d
    | closeProducer k ch a b c d => exact .closeProducer k ch a b c d
    | dropConsumer k ch a b c d => exact .dropConsumer k ch a b c d
    | drain k ch v vs a b c d e => exact .drain k ch v vs a b c d e

/-- What the host may give a new core: each end of a channel that exists, not given up and held by no core; never both ends of
one channel (10_state.md R17, R18). -/
theorem State.endsCanBeGiven_iff {i o : Option Nat} : s.endsCanBeGiven i o = true ↔
    (∀ k, i = some k → (∃ ch, s.chans[k]? = some ch ∧ ch.consumerDropped = false) ∧ ∀ c ∈ s.cores, c.inCh ≠ some k) ∧
    (∀ k, o = some k → (∃ ch, s.chans[k]? = some ch ∧ ch.producerClosed = false) ∧ ∀ c ∈ s.cores, c.outCh ≠ some k) ∧
    ∀ k, i = some k → o ≠ some k := by
  have hin : s.inCanBeGiven i = true ↔ ∀ k, i = some k →
      (∃ ch, s.chans[k]? = some ch ∧ ch.consumerDropped = false) ∧ ∀ c ∈ s.cores, c.inCh ≠ some k := by
    cases i with
    | none => simp [State.inCanBeGiven]
    | some k => cases h : s.chans[k]? <;> simp [State.inCanBeGiven, State.hostConsumes, h, and_comm]
  have hout : s.outCanBeGiven o = true ↔ ∀ k, o = some k →
      (∃ ch, s.chans[k]? = some ch ∧ ch.producerClosed = false) ∧ ∀ c ∈ s.cores, c.outCh ≠ some k := by
    cases o with
    | none => simp [State.outCanBeGiven]
    | some k => cases h : s.chans[k]? <;> simp [State.outCanBeGiven, State.hostProduces, h, and_comm]
  have hapart : endsApart i o = true ↔ ∀ k, i = some k → o ≠ some k := by
    cases i with
    | none => simp [endsApart]
    | some k => simp [endsApart, eq_comm (a := some k)]
  simp only [State.endsCanBeGiven, Bool.and_eq_true, hin, hout, hapart, and_assoc]

/-- A run that is over has an end the status gives; one that is not, has a Running core (40_execution_loop.md R78, R79). -/
theorem State.runEnd?_none {j : Nat} : s.runEnd? j = none ↔ ∃ c, s.cores[j]? = some c ∧ c.status = .running := by
  unfold State.runEnd?
  cases s.cores[j]? with
  | none => simp
  | some c => cases h : c.status <;> simp [h]

/-- One step more of a run: of the core, until its status ends the run or it has no step (R78). -/
theorem State.runCore_succ {j n : Nat} (h : s.runEnd? j = none) :
    (∀ t, move (.core j) s = .next t → s.runCore j (n + 1) = t.runCore j n) ∧
      ((∀ t, move (.core j) s ≠ .next t) → s.runCore j (n + 1) = .waiting s) := by
  cases hm : move (.core j) s <;> simp [State.runCore, h, hm]

/-- EVERYTHING the step of the platform can do when it answers a next state: some agent moves, in a state that differs at
most in the bookkeeping of turns. -/
theorem step_next (h : step s = .next t) :
    ∃ a turns tick, move a { s with turns := turns, tick := tick } = .next t := by
  unfold step platformStep at h
  split at h
  · rename_i a rest hs; exact ⟨a, rest, s.tick, h⟩
  · rename_i hs
    split at h
    · cases h
    · rename_i a _; exact ⟨a, s.turns, s.tick, h⟩
    · rename_i a b others _; exact ⟨_, s.turns, s.tick + 1, h⟩

/-- The same, said of cores and channels: a core moves, or the host does. -/
theorem step_effect (h : step s = .next t) :
    (∃ j c c' i, s.cores[j]? = some c ∧ c.status = .running ∧ t.cores = s.cores.set j c' ∧ CoreEffect i c c' ∧
      ChanEffect c s.chans t.chans ∧ (c'.pc = c.pc ∨ c.pc + i.length ≤ c.params.memCap) ∧ t.host = s.host) ∨
      HostEffect s t := by
  obtain ⟨a, turns, tick, hm⟩ := step_next h
  cases a with
  | core j =>
    obtain ⟨c, c', i, h1, h2, h3, h4, h5, h6, h7, -⟩ := move_core_effect hm
    exact .inl ⟨j, c, c', i, h1, h2, h3, h4, h5, h6, h7⟩
  | host =>
    obtain ⟨he, -, -⟩ := hostStep_effect hm
    refine .inr ?_
    cases he with
    | quiet a b => exact .quiet a b
    | newChannel a b => exact .newChannel a b
    | construct params p i o hg hf a b => exact .construct params p i o hg hf a b
    | produce k ch v a b c d => exact .produce k ch v a b c d
    | closeProducer k ch a b c d => exact .closeProducer k ch a b c d
    | dropConsumer k ch a b c d => exact .dropConsumer k ch a b c d
    | drain k ch v vs a b c d e => exact .drain k ch v vs a b c d e

end Sys2Proof.Machine
end

