-- ==== Sys2Proof/Tests/Slice0.lean ====
section
/-! SUPPORT. Small tests. Expected results are the spec's own (95_test_vectors.md, named in each comment). After them, one
witness for each statement of Certificates/Slice0/Obligations.lean that has hypotheses: values that meet them all. -/

namespace Sys2Proof.Tests

open Sys2Proof.Machine

/-! Builders. -/

/-- The `I64` of value `v`. -/
abbrev num (v : Int) : I64 := I64.ofInt v

/-- `MX` and `MN` of 95_test_vectors.md. -/
abbrev mx : I64 := num (2 ^ 63 - 1)
abbrev mn : I64 := num (-2 ^ 63)

def pos (v : Int) : Operand := ⟨.position, num v⟩
def imm (v : Int) : Operand := ⟨.immediate, num v⟩
def rel (v : Int) : Operand := ⟨.relative, num v⟩

/-- A core in the reset state with `cap` cells, the Program given and no endpoints. -/
def coreOf (cap : Nat) (p : List Int) : CoreState :=
  CoreState.new { memCap := cap, strictInput := false } (p.map num) none none

/-- The same with `In` on channel 0 and `Out` on channel 1. -/
def wiredCore (cap : Nat) (p : List Int) : CoreState := { coreOf cap p with inCh := some 0, outCh := some 1 }

/-- A core alone, with channels. -/
def alone (c : CoreState) (chans : List Channel) : State where
  before := []
  core := c
  after := []
  chans := chans
  host := HostState.new
  turns := []
  tick := 0

/-- An open channel with values queued. -/
def queue (q : List Int) : Channel := { q := q.map num, producerClosed := false, consumerDropped := false }

/-- The next state, if there is one. -/
def nextOf (r : Result) : Option State :=
  match r with
  | .next t => some t
  | .fault _ => none
  | .refused _ => none

/-- The core after one step of a core alone. -/
def stepped (c : CoreState) (chans : List Channel) : Option CoreState := (nextOf (step (alone c chans))).map State.core

/-- Two cores: core 0 produces into channel 0, from which core 1 consumes. -/
def pair (c0 c1 : CoreState) (q : List Int) : State :=
  { alone { c0 with outCh := some 0 } [queue q] with after := [{ c1 with inCh := some 0 }] }

/-- A core about to send 7. -/
def sender : CoreState := coreOf 3 [104, 7, 99]

/-- A core about to receive into its cell 2. -/
def receiver : CoreState := coreOf 3 [3, 2, 99]

/-- A core that has halted. -/
def halted (c : CoreState) : CoreState := { c with status := .halted }

/-! Well-formedness: a destination in Immediate mode is refused (30_encoding.md R60), in every instruction that has one. -/

theorem test_wf_refuses_immediate_destinations :
    (Instr.add (pos 1) (pos 1) (imm 0)).wf = false ∧ (Instr.mul (pos 1) (pos 1) (imm 0)).wf = false ∧
    (Instr.input (imm 0)).wf = false ∧ (Instr.lessThan (imm 1) (imm 2) (imm 3)).wf = false ∧
    (Instr.equals (imm 1) (imm 2) (imm 3)).wf = false := by decide

theorem test_wf_accepts_the_others :
    (Instr.add (imm 1) (imm 1) (pos 0)).wf = true ∧ (Instr.input (rel 2)).wf = true ∧
    (Instr.output (imm 7)).wf = true ∧ Instr.halt.wf = true := by decide

/-! Decoding, one word per constructor, written out from the digits of R50 and the opcodes of R54. -/

/-- V-DEC-12: `10001`, slot 2 Immediate. -/
theorem test_decode_add : decode [num 10001, num 1, num 1, num 0, num 99] =
    .ok (.add (pos 1) (pos 1) (imm 0), [num 99]) := by rfl

/-- V-DEC-11: `302`, digit 3 means Position. -/
theorem test_decode_mul : decode [num 302, num 4, num 4, num 5] = .ok (.mul (pos 4) (pos 4) (pos 5), []) := by rfl

/-- V-DEC-13: `1103`, slot 0 Immediate. -/
theorem test_decode_input : decode [num 1103, num 8] = .ok (.input (imm 8), []) := by rfl

/-- V-DEC-14: `10004`, slot 2 belongs to no operand. -/
theorem test_decode_output : decode [num 10004, num 8] = .ok (.output (pos 8), []) := by rfl

/-- V-DEC-15: `1211105`, slots 2 to 4 unused. -/
theorem test_decode_jump_if_true :
    decode [num 1211105, num (-5), num 4] = .ok (.jumpIfTrue (imm (-5)) (imm 4), []) := by rfl

/-- V-DEC-8: `1006`. -/
theorem test_decode_jump_if_false : decode [num 1006, num 5, num 6] = .ok (.jumpIfFalse (pos 5) (imm 6), []) := by rfl

/-- V-DEC-17: `9223372036854775807`, mode digits 8, 5, 7, 7, 4. -/
theorem test_decode_less_than : decode [mx, num 1, num 2, num 3] = .ok (.lessThan (pos 1) (pos 2) (pos 3), []) := by rfl

/-- V-DEC-10: `21208`. -/
theorem test_decode_equals : decode [num 21208, num 1, num 2, num 3] = .ok (.equals (rel 1) (imm 2) (rel 3), []) := by rfl

/-- V-REL-3: `209,3`. -/
theorem test_decode_adjust : decode [num 209, num 3] = .ok (.adjustRelativeBase (rel 3), []) := by rfl

/-- V-DEC-4: `2222299`. -/
theorem test_decode_halt : decode [num 2222299] = .ok (.halt, []) := by rfl

/-- V-DEC-18 to V-DEC-21, V-DEC-24: no instruction; and an instruction cut short (R50). -/
theorem test_decode_rejects :
    decode [num 0] = .error (.unknownOpcode 0) ∧ decode [num 100] = .error (.unknownOpcode 0) ∧
    decode [num 10] = .error (.unknownOpcode 10) ∧ decode [num 98] = .error (.unknownOpcode 98) ∧
    decode [num (-99)] = .error .negativeWord ∧ decode [num 1, num 0, num 0] = .error .truncated :=
  ⟨rfl, rfl, rfl, rfl, rfl, rfl⟩

/-- The encoder writes the canonical words of S5 and S7 (R62). -/
theorem test_encode : encode (.add (imm 100) (imm (-1)) (pos 4)) = [num 1101, num 100, num (-1), num 4] ∧
    encode (.jumpIfFalse (pos 101) (imm 0)) = [num 1006, num 101, num 0] ∧ encode .halt = [num 99] := by decide

/-- A word of the opcode table by its bits (log 23): cell 0 the low 64 bits, cell 1 the next. -/
theorem test_table_word : decodeTableWord 128 (104 + 2 ^ 64 * 7) = some (.output (imm 7)) ∧
    decodeTableWord 64 109 = some (.adjustRelativeBase (imm 0)) ∧ decodeTableWord 64 98 = none := by decide

/-! One step per instruction. -/

/-- V-ARI-1. -/
theorem test_add_adds : (stepped (coreOf 6 [1101, 5, -7, 5, 99, 0]) []).map (fun c => (c.mem.read 5, c.pc)) =
    some (num (-2), 4) := by decide

/-- V-ARI-2. -/
theorem test_add_overflows :
    (stepped (coreOf 6 [1101, 2 ^ 63 - 1, 1, 5, 99, 0]) []).map (fun c => (c.status, c.mem.read 5, c.pc)) =
    some (.faulted (.arithmeticOverflow 0 (num 1101)), num 0, 0) := by decide

/-- V-ARI-8. -/
theorem test_mul_multiplies :
    (stepped (coreOf 6 [1102, 4294967296, -2147483648, 5, 99, 0]) []).map (fun c => (c.status, c.mem.read 5)) =
    some (.running, mn) := by decide

/-- V-ARI-7. -/
theorem test_mul_overflows :
    (stepped (coreOf 6 [1102, 4294967296, 2147483648, 5, 99, 0]) []).map CoreState.status =
    some (.faulted (.arithmeticOverflow 0 (num 1102))) := by decide

/-- V-IO-10: `IN [rb+2]` at `rb = 1`. -/
theorem test_input_stores :
    (nextOf (step (alone { wiredCore 4 [203, 2, 99, 0] with rb := 1#64 } [queue [5], queue []]))).map
      (fun s => (s.core.mem.read 3, s.core.pc, s.chans)) = some (num 5, 2, [queue [], queue []]) := by decide

/-- V-IO-7: the destination is judged before a value is taken. -/
theorem test_input_faults_before_consuming :
    (nextOf (step (alone (wiredCore 3 [103, 0, 99]) [queue [5], queue []]))).map (fun s => (s.core.status, s.chans)) =
    some (.faulted (.illegalWriteMode 0 (num 103)), [queue [5], queue []]) := by decide

/-- V-IO-11, its last Output: `204,-4` at `rb = 5`, the cell 1 of this Program. -/
theorem test_output_sends :
    (nextOf (step (alone { wiredCore 3 [204, -4, 99] with rb := 5#64 } [queue [], queue [8]]))).map
      (fun s => (s.core.lastOutput, s.core.pc, s.chans)) = some (some (num (-4)), 2, [queue [], queue [8, -4]]) := by decide

/-- V-IO-16: the consumer is gone; the value is recorded and discarded. -/
theorem test_output_dropped :
    (nextOf (step (alone (wiredCore 3 [4, 0, 99]) [queue [], (queue []).dropConsumer]))).map
      (fun s => (s.core.lastOutput, s.chans)) = some (some (num 4), [queue [], (queue []).dropConsumer]) := by decide

/-- V-JMP-3: a negative value is true. -/
theorem test_jump_if_true_takes : (stepped (coreOf 5 [1105, -5, 4, 99, 99]) []).map CoreState.pc = some 4 := by decide

/-- V-JMP-8: a negative target faults at the jump. -/
theorem test_jump_if_true_negative : (stepped (coreOf 4 [1105, 1, -1, 99]) []).map (fun c => (c.status, c.pc)) =
    some (.faulted (.addressOutOfRange (-1) .jump), 0) := by decide

/-- V-JMP-7. -/
theorem test_jump_if_false_takes : (stepped (coreOf 7 [6, 5, 6, 99, 99, 0, 4]) []).map CoreState.pc = some 4 := by decide

/-- V-JMP-5. -/
theorem test_jump_if_false_falls : (stepped (coreOf 5 [1106, 7, 4, 99, 99]) []).map CoreState.pc = some 3 := by decide

/-- V-CMP-5: signed, no overflow. -/
theorem test_less_than_signed : (stepped (coreOf 6 [1107, -2 ^ 63, 2 ^ 63 - 1, 5, 99, -1]) []).map
    (fun c => c.mem.read 5) = some (num 1) := by decide

/-- V-CMP-10: the source cell is also the destination. -/
theorem test_less_than_in_place : (stepped (coreOf 6 [7, 5, 4, 5, 99, 7]) []).map (fun c => c.mem.read 5) =
    some (num 1) := by decide

/-- V-CMP-8. -/
theorem test_equals_differs : (stepped (coreOf 6 [1108, 8, -8, 5, 99, -1]) []).map (fun c => (c.mem.read 5, c.pc)) =
    some (num 0, 4) := by decide

/-- V-CMP-9. -/
theorem test_equals_same : (stepped (coreOf 6 [8, 0, 0, 5, 99, -1]) []).map (fun c => c.mem.read 5) =
    some (num 1) := by decide

/-- V-REL-3: the operand is read at the old `rb`. -/
theorem test_adjust_reads_old_base : (stepped (coreOf 4 [209, 3, 99, 5]) []).map (fun c => (c.rb, c.pc)) =
    some (num 5, 2) := by decide

/-- V-REL-2, its second step. -/
theorem test_adjust_overflows :
    (stepped { coreOf 5 [109, 2 ^ 63 - 1, 109, 1, 99] with rb := mx, pc := 2 } []).map (fun c => (c.status, c.rb)) =
    some (.faulted (.arithmeticOverflow 2 (num 109)), mx) := by decide

/-- V-HLT-2. -/
theorem test_halt_stops : (stepped (coreOf 3 [1099, 7, 7]) []).map (fun c => (c.status, c.pc)) =
    some (.halted, 0) := by decide

/-- V-HLT-1 and R14: Halt in the last cell is legal, and a halted core has no step. -/
theorem test_halt_is_final : (stepped (coreOf 1 [99]) []).map (fun c => nextOf (coreStep (alone c []))) =
    some none := by decide

/-- V-FLT-6 and V-FLT-3. -/
theorem test_fetch_faults :
    (stepped (coreOf 3 [1, 0, 0]) []).map CoreState.status = some (.faulted (.addressOutOfRange 3 .operand)) ∧
    (stepped (coreOf 1 [0]) []).map CoreState.status = some (.faulted (.illegalInstruction 0 (num 0))) := by decide

/-- The code numbers of the faults (R150). -/
theorem test_fault_codes : (Cause.illegalInstruction 0 0#64).code = 1 ∧ (Cause.addressOutOfRange 0 .read).code = 2 ∧
    (Cause.arithmeticOverflow 0 0#64).code = 3 ∧ (Cause.illegalWriteMode 0 0#64).code = 4 ∧
    (Cause.inputUnavailable 0 .closed).code = 5 := by decide

/-- The text format (R63): `1,-2`. -/
theorem test_parse : parseProgram ['1', ',', '-', '2'] = some [num 1, num (-2)] := by decide

/-! The host. -/

/-- The host's first action on a platform. -/
def hostDoes (a : HostAction) (s : State) : Result := hostStep { s with host := { s.host with script := [a] } }

/-- P6 (R175): two cores wait for each other; `Produce(ch[0], 9)` by the host, though core 1 holds that end, releases core 0. -/
theorem test_host_releases_a_deadlock :
    (nextOf (hostDoes (.produce 0 (num 9))
      { alone { coreOf 3 [3, 0, 99] with inCh := some 0, outCh := some 1 } [queue [], queue []] with
        after := [{ coreOf 3 [3, 0, 99] with inCh := some 1, outCh := some 0 }] })).map
      (fun s => (s.chans, hasStep s (.core 0), hasStep s (.core 1))) = some ([queue [9], queue []], true, false) := by
  decide

/-- R78: `run()` waits for a Running core, and returns with nothing once it is Halted. -/
theorem test_host_run : hostDoes (.run 0) (alone sender []) = .fault .waiting ∧
    hostDoes (.run 0) (alone (halted sender) []) = .next (alone (halted sender) []) := ⟨rfl, rfl⟩

/-- R79: after the end of a run the host reads `pc` and `rb`. -/
theorem test_host_reads_pc_and_rb :
    (nextOf (hostDoes (.readPc 0) (alone (halted { sender with pc := 2 }) []))).map (fun s => s.host.got) =
      some [.pc 0 2] ∧
    (nextOf (hostDoes (.readRb 0) (alone (halted { sender with rb := num (-3) }) []))).map (fun s => s.host.got) =
      some [.rb 0 (num (-3))] := by decide

/-- R17: no core gets both ends of one channel. -/
theorem test_host_gives_no_core_both_ends :
    hostConstruct 0 { memCap := 3, strictInput := false } (some 0) (some 0)
      { alone sender [queue [], queue []] with host := { HostState.new with programs := [[num 99]] } } =
      .refused .hostForbidden := rfl

/-! Witnesses: for each statement with hypotheses, values that meet all of them, each clause at the edge of its range. -/

/-- Whether an outcome is a next state. -/
def goesOn (r : Result) : Bool := (nextOf r).isSome

theorem goesOn_next {r : Result} (h : goesOn r = true) : ∃ t, r = .next t := by
  cases r with
  | next t => exact ⟨t, rfl⟩
  | fault f => cases h
  | refused f => cases h

theorem alone_wired {c : CoreState} (h : c.inCh = none) (h' : c.outCh = none) (chans : List Channel) :
    (alone c chans).wired := by
  simp [State.wired, State.cores, alone, h, h']

theorem alone_inv {c : CoreState} (hc : c.legal) (h : c.inCh = none) (h' : c.outCh = none) (chans : List Channel) :
    (alone c chans).Inv := by
  refine ⟨by simpa [State.cores, alone] using hc, alone_wired h h' chans, ?_⟩
  intro d hd _ k ch _
  simp only [State.cores, alone, List.nil_append, List.mem_singleton] at hd
  subst hd
  simp [h, h']

/-- A pair is wired whatever its cores, if they have no endpoints of their own. -/
theorem pair_wired {c0 c1 : CoreState} (h0 : c0.inCh = none) (h1 : c1.outCh = none) (q : List Int) :
    (pair c0 c1 q).wired := by
  simp [State.wired, State.cores, pair, alone, h0, h1]

theorem pair_inv : (pair sender receiver [5]).Inv := by
  refine ⟨?_, pair_wired rfl rfl [5], ?_⟩
  · intro c hc
    simp only [State.cores, pair, alone, List.nil_append, List.mem_cons, List.not_mem_nil, or_false] at hc
    rcases hc with rfl | rfl <;> exact ⟨by decide, by decide, by decide, by decide⟩
  · intro c hc _ k ch hk
    cases k with
    | zero => cases hk; exact ⟨fun _ => rfl, fun _ => rfl⟩
    | succ k => cases hk

theorem witness_DecoderSplitsDecimalDigits :
    (num (-1)).toInt < 0 ∧ 0 ≤ (num 2109).toInt ∧ (num 2109).toInt / 100 / 10 ^ 0 % 10 = 1 ∧
    (num 2109).toInt / 100 / 10 ^ 1 % 10 = 2 ∧ (num 2109).toInt / 100 / 10 ^ 4 % 10 = 0 ∧ 0 ≤ (num 0).toInt := by decide

theorem witness_OpcodeMapIsTotal :
    (num (-1)).toInt < 0 ∧ 0 ≤ (num 0).toInt ∧ (num 100).toInt % 100 = 0 ∧ (num 10).toInt % 100 = 10 ∧
    (num 98).toInt % 100 = 98 ∧ (num 1).toInt % 100 = 1 ∧ (num 9).toInt % 100 = 9 ∧ (num 1099).toInt % 100 = 99 := by
  decide

theorem witness_LengthIsOfTheOpcodeAlone :
    decode [num 1, num 2, num 3, num 4] = .ok (.add (pos 2) (pos 3) (pos 4), []) ∧
    decode [num 1101, num 2, num 3, num 4, num 5] = .ok (.add (imm 2) (imm 3) (pos 4), [num 5]) ∧
    (num 1).toInt % 100 = (num 1101).toInt % 100 := ⟨rfl, rfl, rfl⟩

theorem witness_EncodingIsPrefixFree : encode .halt ++ [num 7] = encode .halt ++ [num 7] := by decide

theorem witness_UnusedDigitsAreIgnored :
    0 ≤ (num 10001101).toInt ∧ 0 ≤ (num 1101).toInt ∧ (num 10001101).toInt % 10 ^ 7 = (num 1101).toInt % 10 ^ 7 ∧
    (splitWord 103).slot 0 = (splitWord 22103).slot 0 ∧ (splitWord 103).slot 1 ≠ (splitWord 22103).slot 1 := by decide

/-- An instruction in the last cells of memory, and one cell more than there is. -/
theorem witness_FetchFaultsInOrder :
    (coreOf 4 [1, 0, 0, 0]).pc + 1 + 2 < (coreOf 4 [1, 0, 0, 0]).params.memCap ∧
    selectOp ((coreOf 3 [1, 0, 0]).mem.read 0) = .ok (.add, splitWord 1) ∧
    (coreOf 3 [1, 0, 0]).params.memCap ≤ (coreOf 3 [1, 0, 0]).pc + 1 + 2 ∧
    (∀ j < 2, (coreOf 3 [1, 0, 0]).pc + 1 + j < (coreOf 3 [1, 0, 0]).params.memCap) ∧
    selectOp ((coreOf 1 [98]).mem.read 0) = .error (.unknownOpcode 98) ∧
    (coreOf 0 []).params.memCap ≤ (coreOf 0 []).pc := ⟨by decide, rfl, by decide, by decide, rfl, by decide⟩

/-- The two ends of memory and the addresses just past them, in Position and, at `rb = -1`, in Relative mode. -/
theorem witness_SourceOperandIsRead :
    (0 ≤ (num 0).toInt ∧ (num 0).toInt < (coreOf 5 []).params.memCap) ∧ (num 4).toInt < (coreOf 5 []).params.memCap ∧
    ¬(0 ≤ (num (-1)).toInt ∧ (num (-1)).toInt < (coreOf 5 []).params.memCap) ∧
    ¬(0 ≤ (num 5).toInt ∧ (num 5).toInt < (coreOf 5 []).params.memCap) ∧
    (0 ≤ (num (-1)).toInt + (num 1).toInt ∧ (num (-1)).toInt + (num 5).toInt < (coreOf 5 []).params.memCap) ∧
    ¬(0 ≤ (num (-1)).toInt + (num 0).toInt) ∧
    ¬((num (-1)).toInt + (num 6).toInt < (coreOf 5 []).params.memCap) := by decide

theorem witness_DestinationOperandNamesACell :
    (0 ≤ (num 0).toInt ∧ (num 4).toInt < (coreOf 5 []).params.memCap) ∧
    ¬(0 ≤ (num (-1)).toInt ∧ (num (-1)).toInt < (coreOf 5 []).params.memCap) ∧
    ¬(0 ≤ (num 5).toInt ∧ (num 5).toInt < (coreOf 5 []).params.memCap) ∧
    (0 ≤ mx.toInt + (num 1).toInt) ∧ ¬(mx.toInt + (num 1).toInt < (coreOf 5 []).params.memCap) := by decide

/-- Core 1's turn, and a core alone. -/
theorem witness_StepRunsTheDecodedInstruction :
    ({ pair sender receiver [5] with turns := [.core 1] }).turns = [.core 1] ∧
    (∃ u, (pair sender receiver [5]).select 1 = some u ∧ u.core.status = .running ∧
      u.core.standsAtPc (.input (pos 2))) ∧
    (alone sender []).host.script = [] ∧ sender.status = .running ∧ sender.standsAtPc (.output (imm 7)) ∧
    (∃ t, exec (.output (imm 7)) (alone sender []) = .next t) :=
  ⟨rfl, ⟨_, rfl, rfl, by decide, _, rfl⟩, rfl, rfl, ⟨by decide, _, rfl⟩, _, rfl⟩

theorem witness_StepTakesTheFetchFault :
    (coreOf 0 []).params.memCap ≤ (coreOf 0 []).pc ∧ (coreOf 1 [-1]).pc < (coreOf 1 [-1]).params.memCap ∧
    ((coreOf 1 [-1]).mem.read 0).toInt < 0 ∧ ((coreOf 1 [100]).mem.read 0).toInt % 100 = 0 ∧
    10 ≤ ((coreOf 1 [10]).mem.read 0).toInt % 100 ∧ ((coreOf 1 [98]).mem.read 0).toInt % 100 ≤ 98 ∧
    ((pair sender (coreOf 1 [98]) []).select 1).isSome = true := by decide

theorem witness_SomeReadyAgentMoves :
    (alone sender []).turns = [] ∧ goesOn (step (alone sender [])) = true ∧
    ({ alone sender [] with turns := [.host] }).turns = [.host] := by decide

theorem witness_ConstructionLeavesTheResetValues :
    ([num 7] : List I64)[0]? = some (num 7) ∧ ([num 7] : List I64).length ≤ 1 := by decide

theorem witness_ResetIsAConstructedCore : decodeTableWord 64 99 = some .halt := by decide

/-- A ring of the Program `99`, phases 9 to 5. -/
theorem witness_RingStartMeetsTheInvariant :
    (State.ring { memCap := 1, strictInput := false } [num 99] #v[num 9, num 8, num 7, num 6, num 5]).isSome = true := by
  decide

theorem witness_RingIsWiredAndSeeded :
    (State.ring { memCap := 2 ^ 63, strictInput := true } [num 99] #v[mx, mn, num 0, num 0, num 0]).isSome = true := by
  decide

theorem witness_RunWithInputsPreloadsInOrder :
    (State.withInputs { memCap := 1, strictInput := false } [num 99] [num 1, num 2] true).isSome = true ∧
    (alone (halted sender) [queue [], queue [7]]).chans[1]? = some (queue [7]) ∧
    (alone (halted sender) [queue [], queue [7]]).core.status = .halted ∧
    (alone sender [queue [], queue [7]]).core.status ≠ .halted := by decide

/-- The hypotheses of the clauses of Add, at the edges: the greatest sum, the least one beyond it, the last cell, the first
one beyond. -/
theorem witness_AddStoresTheExactSum :
    (coreOf 5 [1]).readParam (imm (2 ^ 63 - 2)) = .ok (num (2 ^ 63 - 2)) ∧ (coreOf 5 [1]).readParam (pos 0) = .ok (num 1) ∧
    mx.toInt = (num (2 ^ 63 - 2)).toInt + (num 1).toInt ∧ (coreOf 5 [1]).writeAddr (pos 4) = .ok 4 ∧
    (coreOf 5 [1]).readParam (pos 5) = .error (.addressOutOfRange 5 .read) ∧
    ¬(-2 ^ 63 ≤ mx.toInt + (num 1).toInt ∧ mx.toInt + (num 1).toInt ≤ 2 ^ 63 - 1) ∧
    (coreOf 5 [1]).writeAddr (imm 4) = .error (.illegalWriteMode 0 (num 1)) :=
  ⟨rfl, rfl, by decide, rfl, rfl, by decide, rfl⟩

theorem witness_MultiplyStoresTheExactProduct :
    (coreOf 5 [2]).readParam (imm (2 ^ 31)) = .ok (num (2 ^ 31)) ∧ (coreOf 5 [2]).readParam (imm (-2 ^ 32)) = .ok (num (-2 ^ 32)) ∧
    mn.toInt = (num (2 ^ 31)).toInt * (num (-2 ^ 32)).toInt ∧ (coreOf 5 [2]).writeAddr (rel 0) = .ok 0 ∧
    (coreOf 5 [2]).readParam (rel (-1)) = .error (.addressOutOfRange (-1) .read) ∧
    ¬(-2 ^ 63 ≤ mn.toInt * (num (-1)).toInt ∧ mn.toInt * (num (-1)).toInt ≤ 2 ^ 63 - 1) ∧
    (coreOf 5 [2]).writeAddr (pos 5) = .error (.addressOutOfRange 5 .write) :=
  ⟨rfl, rfl, by decide, rfl, rfl, by decide, rfl⟩

theorem witness_ArithmeticCorners :
    mx.toInt ≠ -2 ^ 63 ∧ toI64 ((num (-6)).toInt * (num (-7)).toInt) = some (num 42) ∧ (num (-6)).toInt < 0 ∧
    toI64 ((num (-6)).toInt * (num 7).toInt) = some (num (-42)) ∧ 0 < (num 7).toInt := by decide

theorem witness_InputTakesTheOldestValue :
    receiver.writeAddr (imm 2) = .error (.illegalWriteMode 0 (num 3)) ∧ receiver.writeAddr (pos 2) = .ok 2 ∧
    receiver.inCh = none ∧ receiver.params.strictInput = false ∧
    ({ receiver with params := { memCap := 3, strictInput := true } }).params.strictInput = true ∧
    (wiredCore 3 [3, 2, 99]).inCh = some 0 ∧ ([queue [5]] : List Channel)[0]? = some (queue [5]) ∧
    (queue [5]).q = [num 5] ∧ (queue []).q = [] ∧ (queue []).producerClosed = false ∧
    (queue []).closeProducer.producerClosed = true :=
  ⟨rfl, rfl, rfl, rfl, rfl, rfl, rfl, rfl, rfl, rfl, rfl⟩

theorem witness_OutputProducesAndRecords :
    sender.readParam (pos 3) = .error (.addressOutOfRange 3 .read) ∧ sender.readParam (imm 7) = .ok (num 7) ∧
    sender.outCh = none ∧ (wiredCore 3 [104, 7, 99]).outCh = some 1 ∧
    ([queue [], queue []] : List Channel)[1]? = some (queue []) ∧ (queue []).consumerDropped = false ∧
    (queue []).dropConsumer.consumerDropped = true := ⟨rfl, rfl, rfl, rfl, rfl, rfl, rfl⟩

/-- A value of zero, one that is negative, targets -1, 0 and the greatest. -/
theorem witness_JumpIfTrueTakesTheTarget :
    (coreOf 3 [5]).readParam (pos 3) = .error (.addressOutOfRange 3 .read) ∧ (coreOf 3 [5]).readParam (pos 1) = .ok 0#64 ∧
    (0#64 : I64).toInt = 0 ∧ (coreOf 3 [5]).readParam (imm (-1)) = .ok (num (-1)) ∧ (num (-1)).toInt ≠ 0 ∧
    (num (-1)).toInt < 0 ∧ (num 0).toInt = (0 : Nat) ∧ mx.toInt = (9223372036854775807 : Nat) :=
  ⟨rfl, rfl, by decide, rfl, by decide, by decide, by decide, by decide⟩

theorem witness_JumpIfFalseTakesTheTarget :
    (coreOf 3 [6]).readParam (pos (-1)) = .error (.addressOutOfRange (-1) .read) ∧ (coreOf 3 [6]).readParam (rel 1) = .ok 0#64 ∧
    (0#64 : I64).toInt = 0 ∧ (coreOf 3 [6]).readParam (pos 0) = .ok (num 6) ∧ (num 6).toInt ≠ 0 ∧
    (num (-1)).toInt < 0 ∧ (num 0).toInt = (0 : Nat) :=
  ⟨rfl, rfl, by decide, rfl, by decide, by decide, by decide⟩

theorem witness_LessThanStoresOneOrZero :
    (coreOf 5 [7]).readParam (imm (-2 ^ 63)) = .ok mn ∧ (coreOf 5 [7]).readParam (imm (2 ^ 63 - 1)) = .ok mx ∧
    (1#64 : I64) = (if mn.toInt < mx.toInt then 1#64 else 0#64) ∧ (0#64 : I64) = (if mx.toInt < mx.toInt then 1#64 else 0#64) ∧
    (coreOf 5 [7]).writeAddr (pos 4) = .ok 4 ∧ (coreOf 5 [7]).readParam (pos 5) = .error (.addressOutOfRange 5 .read) ∧
    (coreOf 5 [7]).writeAddr (imm 4) = .error (.illegalWriteMode 0 (num 7)) :=
  ⟨rfl, rfl, by decide, by decide, rfl, rfl, rfl⟩

theorem witness_EqualsStoresOneOrZero :
    (coreOf 5 [8]).readParam (imm (-1)) = .ok (num (-1)) ∧ (coreOf 5 [8]).readParam (pos 0) = .ok (num 8) ∧
    (0#64 : I64) = (if num (-1) = num 8 then 1#64 else 0#64) ∧ (1#64 : I64) = (if num 8 = num 8 then 1#64 else 0#64) ∧
    (coreOf 5 [8]).writeAddr (rel 4) = .ok 4 ∧ (coreOf 5 [8]).readParam (rel 5) = .error (.addressOutOfRange 5 .read) ∧
    (coreOf 5 [8]).writeAddr (rel 5) = .error (.addressOutOfRange 5 .write) :=
  ⟨rfl, rfl, by decide, by decide, rfl, rfl, rfl⟩

theorem witness_AdjustRelativeBaseAdds :
    ({ coreOf 2 [109, 1] with rb := num (2 ^ 63 - 2) }).readParam (imm 1) = .ok (num 1) ∧
    mx.toInt = (num (2 ^ 63 - 2)).toInt + (num 1).toInt ∧
    (coreOf 2 [109, 1]).readParam (pos 2) = .error (.addressOutOfRange 2 .read) ∧
    ¬(-2 ^ 63 ≤ mx.toInt + (num 1).toInt ∧ mx.toInt + (num 1).toInt ≤ 2 ^ 63 - 1) := ⟨rfl, by decide, rfl, by decide⟩

theorem witness_HaltStopsTheCore :
    (coreOf 1 [99]).pc < (coreOf 1 [99]).params.memCap ∧ 0 ≤ ((coreOf 1 [99]).mem.read 0).toInt ∧
    ((coreOf 1 [99]).mem.read 0).toInt % 100 = 99 ∧
    (pair (halted sender) receiver [5]).cores[0]? = some { halted sender with outCh := some 0 } ∧
    (halted sender).status = .halted ∧ goesOn (step (pair (halted sender) receiver [5])) = true := by decide

/-- All four run, into the last cell; and fault on a destination beyond it. -/
theorem witness_ThreeOperandFrame :
    goesOn (exec (.add (imm 1) (imm 2) (pos 4)) (alone (coreOf 5 []) [])) = true ∧
    goesOn (exec (.mul (imm 1) (imm 2) (pos 4)) (alone (coreOf 5 []) [])) = true ∧
    goesOn (exec (.lessThan (imm 1) (imm 2) (pos 4)) (alone (coreOf 5 []) [])) = true ∧
    goesOn (exec (.equals (imm 1) (imm 2) (pos 4)) (alone (coreOf 5 []) [])) = true ∧
    (coreOf 5 []).writeAddr (pos 4) = .ok 4 ∧ goesOn (exec (.add (imm 1) (imm 2) (pos 5)) (alone (coreOf 5 []) [])) = true ∧
    (coreOf 5 []).writeAddr (pos 5) = .error (.addressOutOfRange 5 .write) :=
  ⟨by decide, by decide, by decide, by decide, rfl, by decide, rfl⟩

theorem witness_InputFrame :
    goesOn (exec (.input (pos 2)) (alone (wiredCore 3 [3, 2, 99]) [queue [5], queue []])) = true ∧
    (wiredCore 3 [3, 2, 99]).writeAddr (pos 2) = .ok 2 ∧ (wiredCore 3 [3, 2, 99]).inCh ≠ some 1 ∧
    goesOn (exec (.input (imm 2)) (alone (wiredCore 3 [3, 2, 99]) [queue [5], queue []])) = true ∧
    (wiredCore 3 [3, 2, 99]).writeAddr (imm 2) = .error (.illegalWriteMode 0 (num 3)) :=
  ⟨by decide, rfl, by decide, by decide, rfl⟩

/-- Output, both jumps, AdjustRelativeBase and Halt all run. -/
theorem witness_NonStoringFrame :
    (Instr.output (imm 7)).dst? = none ∧
    goesOn (exec (.output (imm 7)) (alone (wiredCore 3 []) [queue [], queue []])) = true ∧
    (wiredCore 3 []).outCh ≠ some 0 ∧ goesOn (exec (.jumpIfTrue (imm 1) (imm 2)) (alone (coreOf 3 []) [])) = true ∧
    goesOn (exec (.jumpIfFalse (imm 0) (imm 2)) (alone (coreOf 3 []) [])) = true ∧
    goesOn (exec (.adjustRelativeBase (imm 7)) (alone (coreOf 3 []) [])) = true ∧
    goesOn (exec .halt (alone (coreOf 3 []) [])) = true := by decide

/-- Each of the five completes. -/
theorem witness_WrittenCellHoldsTheResult :
    (coreOf 5 []).mem.wf = true ∧ (coreOf 5 []).status = .running ∧ (coreOf 5 []).readParam (imm 1) = .ok (num 1) ∧
    (coreOf 5 []).readParam (imm 2) = .ok (num 2) ∧ (coreOf 5 []).writeAddr (pos 4) = .ok 4 ∧
    (∃ t, exec (.add (imm 1) (imm 2) (pos 4)) (alone (coreOf 5 []) []) = .next t ∧ t.core.status = .running) ∧
    (∃ t, exec (.mul (imm 1) (imm 2) (pos 4)) (alone (coreOf 5 []) []) = .next t ∧ t.core.status = .running) ∧
    (∃ t, exec (.lessThan (imm 1) (imm 2) (pos 4)) (alone (coreOf 5 []) []) = .next t ∧ t.core.status = .running) ∧
    (∃ t, exec (.equals (imm 1) (imm 2) (pos 4)) (alone (coreOf 5 []) []) = .next t ∧ t.core.status = .running) ∧
    (wiredCore 5 []).mem.wf = true ∧ (wiredCore 5 []).writeAddr (pos 4) = .ok 4 ∧ (wiredCore 5 []).inCh = some 0 ∧
    (queue [5, 6]).q = [num 5, num 6] ∧
    (∃ t, exec (.input (pos 4)) (alone (wiredCore 5 []) [queue [5, 6], queue []]) = .next t ∧
      t.core.status = .running) :=
  ⟨rfl, rfl, rfl, rfl, rfl, ⟨_, rfl, rfl⟩, ⟨_, rfl, rfl⟩, ⟨_, rfl, rfl⟩, ⟨_, rfl, rfl⟩, rfl, rfl, rfl, rfl, _, rfl, rfl⟩

theorem witness_PcFollowsTheTable :
    (coreOf 5 []).status = .running ∧
    (∃ t, exec .halt (alone (coreOf 5 []) []) = .next t) ∧
    (∃ t, exec (.jumpIfTrue (imm 0) (imm 4)) (alone (coreOf 5 []) []) = .next t ∧ t.core.status = .running) ∧
    (∃ t, exec (.jumpIfTrue (imm (-1)) (imm 4)) (alone (coreOf 5 []) []) = .next t ∧ t.core.status = .running) ∧
    (∃ t, exec (.jumpIfFalse (imm 0) (imm 4)) (alone (coreOf 5 []) []) = .next t ∧ t.core.status = .running) ∧
    (∃ t, exec (.jumpIfFalse (imm 1) (imm 4)) (alone (coreOf 5 []) []) = .next t ∧ t.core.status = .running) ∧
    (∃ t, exec (.add (imm 1) (imm 2) (pos 4)) (alone (coreOf 5 []) []) = .next t ∧ t.core.status = .running) :=
  ⟨rfl, ⟨_, rfl⟩, ⟨_, rfl, rfl⟩, ⟨_, rfl, rfl⟩, ⟨_, rfl, rfl⟩, ⟨_, rfl, rfl⟩, _, rfl, rfl⟩

theorem witness_FaultsArePrecise :
    ∃ t c', move (.core 0) (alone (coreOf 1 [0]) []) = .next t ∧ (alone (coreOf 1 [0]) []).cores[0]? = some (coreOf 1 [0]) ∧
      t.cores[0]? = some c' ∧ c'.status = .faulted (.illegalInstruction 0 0#64) := ⟨_, _, rfl, rfl, rfl, rfl⟩

theorem witness_StoppedCoresNeverChange :
    goesOn (step (pair (halted sender) receiver [5])) = true ∧
    (pair (halted sender) receiver [5]).cores[0]? = some { halted sender with outCh := some 0 } ∧
    (halted sender).status ≠ .running := by decide

theorem witness_OnlyHaltHalts :
    ∃ t c', step (alone (coreOf 1 [99]) []) = .next t ∧ (alone (coreOf 1 [99]) []).cores[0]? = some (coreOf 1 [99]) ∧
      t.cores[0]? = some c' ∧ (coreOf 1 [99]).status = .running ∧ c'.status = .halted := ⟨_, _, rfl, rfl, rfl, rfl, rfl⟩

theorem witness_CoresShareOnlyChannels :
    goesOn (move (.core 1) (pair sender receiver [5])) = true ∧
    (pair sender receiver [5]).cores[1]? = some { receiver with inCh := some 0 } ∧ receiver.inCh ≠ some 1 ∧
    receiver.outCh ≠ some 1 := by decide

/-- The same core 1 beside another core 0. -/
theorem witness_CoreDependsOnItsOwnStateAndChannels :
    (pair sender receiver [5]).cores[1]? = (pair (halted sender) receiver [5]).cores[1]? ∧
    (pair sender receiver [5]).cores[1]? = some { receiver with inCh := some 0 } ∧
    (pair sender receiver [5]).chans = (pair (halted sender) receiver [5]).chans ∧
    goesOn (move (.core 1) (pair sender receiver [5])) = true := by decide

theorem witness_ChannelsAreFifo :
    goesOn (step (alone (wiredCore 3 [104, 7, 99]) [(queue []).closeProducer, (queue [1]).dropConsumer])) = true ∧
    ([(queue []).closeProducer, (queue [1]).dropConsumer] : List Channel)[1]? = some (queue [1]).dropConsumer ∧
    (queue [1]).dropConsumer.consumerDropped = true ∧ (queue []).closeProducer.producerClosed = true := by decide

theorem witness_BlockedExactlyOnAnEmptyOpenChannel :
    exec (.input (pos 2)) (alone (wiredCore 3 [3, 2, 99]) [queue [], queue []]) = .fault .blocked ∧
    (wiredCore 3 [3, 2, 99]).writeAddr (pos 2) = .ok 2 ∧ (wiredCore 3 [3, 2, 99]).inCh = some 0 ∧ (queue []).q = [] ∧
    (queue []).producerClosed = false := ⟨rfl, rfl, rfl, rfl, rfl⟩

theorem witness_BlockIsLiftedByAnotherAgent :
    exec (.input (pos 2)) (alone (wiredCore 3 [3, 2, 99]) [queue [], queue []]) = .fault .blocked ∧
    (wiredCore 3 [3, 2, 99]).writeAddr (pos 2) = .ok 2 ∧ (wiredCore 3 [3, 2, 99]).inCh = some 0 ∧
    ([queue [], queue []] : List Channel)[0]? = some (queue []) ∧ (queue []).consumerDropped = false ∧
    (wiredCore 3 [3, 2, 99]).params.strictInput = false := ⟨rfl, rfl, rfl, rfl, rfl, rfl⟩

theorem witness_InstructionsOnlyStopBlocked : (pair sender receiver []).wired := pair_wired rfl rfl []

theorem witness_FinishedExactlyWhenAllHalted :
    (alone (halted sender) []).turns = [] ∧ (alone (halted sender) []).host.script = [] ∧
    step (alone (halted sender) []) = .fault .finished ∧ ∀ c ∈ (alone (halted sender) []).cores, c.status = .halted :=
  ⟨rfl, rfl, rfl, by decide⟩

theorem witness_DeadlockMeansEveryRunningCoreIsBlocked :
    (pair (halted sender) receiver []).wired ∧ (pair (halted sender) receiver []).turns = [] ∧
    step (pair (halted sender) receiver []) = .fault .deadlock ∧
    (pair (halted sender) receiver []).cores[1]? = some { receiver with inCh := some 0 } ∧
    receiver.status = .running := ⟨pair_wired rfl rfl [], rfl, rfl, rfl, rfl⟩

theorem witness_HostNeverWritesACore :
    goesOn (move .host { alone sender [] with host := { HostState.new with script := [.newChannel] } }) = true ∧
    (alone sender []).cores[0]? = some sender := by decide

theorem witness_EndpointsAndParametersAreFixed :
    goesOn (step (alone sender [])) = true ∧ (alone sender []).cores[0]? = some sender := by decide

theorem witness_CanonicalMemoriesAreDeterminedByTheirCells :
    Memory.wf ((Memory.write [] 3 (num 5)).write 1 (num 6)) = true ∧
    Memory.wf ((Memory.write [] 1 (num 6)).write 3 (num 5)) = true ∧
    ∀ a, Memory.read ((Memory.write [] 3 (num 5)).write 1 (num 6)) a =
      Memory.read ((Memory.write [] 1 (num 6)).write 3 (num 5)) a := ⟨by decide, by decide, fun _ => rfl⟩

theorem witness_ProduceAppendsAndConsumeTakesTheOldest :
    (queue []).dropConsumer.consumerDropped = true ∧ (queue []).consumerDropped = false ∧
    (queue [1, 2]).q = [num 1, num 2] ∧ (queue []).q = [] ∧ (queue []).closeProducer.producerClosed = true ∧
    (queue []).producerClosed = false := by decide

/-- Channel 0 of the pair: its producer halted, its consumer Running; and the other way round. -/
theorem witness_EndsAreReleasedOnlyWhenAllowed :
    (pair (halted sender) receiver []).chans[0]? = some (queue []) ∧
    (∀ c ∈ (pair (halted sender) receiver []).cores, c.outCh = some 0 → c.status ≠ .running) ∧
    (∃ c ∈ (pair (halted sender) receiver []).cores, c.inCh = some 0 ∧ c.status = .running) ∧
    (∀ c ∈ (pair sender (halted receiver) []).cores, c.inCh = some 0 → c.status ≠ .running) ∧
    (∃ c ∈ (pair sender (halted receiver) []).cores, c.outCh = some 0 ∧ c.status = .running) ∧
    (queue []).producerClosed = false ∧ (queue []).consumerDropped = false ∧
    (queue []).closeProducer.producerClosed = true ∧ (queue []).dropConsumer.consumerDropped = true := by decide

/-- A Running core, a Halted one, a Faulted one; runs that return, fault, wait and are not over yet. -/
theorem witness_HostReadsOnlyStoppedCores :
    (alone sender []).cores[0]? = some sender ∧ sender.status = .running ∧
    (alone (halted sender) []).cores[0]? = some (halted sender) ∧ (halted sender).status = .halted ∧
    2 < (halted sender).params.memCap ∧ (halted sender).lastOutput = none ∧
    (halted (sender.setLast (num 7))).lastOutput = some (num 7) ∧
    ((alone (coreOf 1 [0]) []).raise (.illegalInstruction 0 0#64)).core.status =
      .faulted (.illegalInstruction 0 0#64) ∧
    (∃ t, (alone sender []).runCore 0 2 = .returned t) ∧
    (∃ t, (alone (coreOf 1 [0]) []).runCore 0 1 = .faulted (.illegalInstruction 0 0#64) t) ∧
    (pair sender receiver []).runCore 1 1 = .waiting (pair sender receiver []) ∧
    ∃ t, (alone sender []).runCore 0 1 = .unfinished t :=
  ⟨rfl, rfl, rfl, rfl, by decide, rfl, rfl, rfl, ⟨_, rfl⟩, ⟨_, rfl⟩, rfl, _, rfl⟩

theorem witness_HostProducesAndDrainsChannels :
    ([queue [5]] : List Channel)[0]? = some (queue [5]) ∧ (queue [5]).producerClosed = false ∧
    (queue []).closeProducer.producerClosed = true ∧ (∀ c ∈ (alone sender [queue [5]]).cores, c.inCh ≠ some 0) ∧
    (queue [5]).consumerDropped = false ∧ (queue [5]).q = [num 5] ∧ (queue []).closeProducer.q = [] ∧
    (queue []).closeProducer.consumerDropped = false ∧ (queue []).producerClosed = false ∧
    (queue [5]).dropConsumer.consumerDropped = true ∧
    (∃ c ∈ (pair sender receiver []).cores, c.inCh = some 0) := by decide

/-- Five halted cores, and four with a Running one. -/
theorem witness_RingResultIsLastOutputOfCoreFour :
    ({ alone (halted sender) [] with after := List.replicate 4 (halted sender) }).cores.length = 5 ∧
    ({ alone (halted sender) [] with after := List.replicate 4 (halted sender) }).cores[4]? = some (halted sender) ∧
    (∀ c ∈ ({ alone (halted sender) [] with after := List.replicate 4 (halted sender) }).cores, c.status = .halted) ∧
    ({ alone sender [] with after := List.replicate 4 (halted sender) }).cores[4]? = some (halted sender) ∧
    ¬(∀ c ∈ ({ alone sender [] with after := List.replicate 4 (halted sender) }).cores, c.status = .halted) :=
  ⟨rfl, rfl, by decide, rfl, by decide⟩

/-- Texts that parse and do not; a Program of exactly the capacity, and one cell more; on the pair's channel both ends are
held, on a second one neither is. -/
theorem witness_ConstructionNeedsAProgramThatFits :
    parseProgram ['x'] = none ∧ parseProgram ['7'] = some [num 7] ∧
    ({ HostState.new with programs := [[num 104, num 7, num 99]] }).programs[0]? = some [num 104, num 7, num 99] ∧
    ([num 104, num 7, num 99] : List I64).length ≤ 3 ∧ 2 < ([num 104, num 7, num 99] : List I64).length ∧
    (2 ^ 63 : Nat) ≤ 2 ^ 63 ∧
    ([queue [], queue []] : List Channel)[1]? = some (queue []) ∧
    (queue []).consumerDropped = false ∧ (queue []).producerClosed = false ∧
    (∀ c ∈ (pair sender receiver []).cores, c.inCh ≠ some 1 ∧ c.outCh ≠ some 1) ∧ some 1 ≠ (some 2 : Option Nat) ∧
    (∃ c ∈ (pair sender receiver []).cores, c.inCh = some 0) ∧
    (∃ c ∈ (pair sender receiver []).cores, c.outCh = some 0) := by decide

theorem witness_ProgramTextRoundTrip : ([mn] : List I64) ≠ [] := by decide

/-- The digits of `2^63`. -/
def tooGreat : List Char := ['9', '2', '2', '3', '3', '7', '2', '0', '3', '6', '8', '5', '4', '7', '7', '5', '8', '0', '8']

/-- Each malformed token, and `1,` before it and `,2` behind. -/
theorem witness_MalformedTextIsRefused :
    (∃ x, ['1', ','] = x ++ [',']) ∧ (∃ x, [',', '2'] = ',' :: x) ∧ (∀ ch ∈ ['1', ' '], ch ≠ ',') ∧
    (' ' ≠ '-' ∧ ¬('0'.toNat ≤ ' '.toNat ∧ ' '.toNat ≤ '9'.toNat)) ∧
    (∃ x y, x ≠ [] ∧ ['1', '-', '2'] = x ++ '-' :: y) ∧
    (¬(-2 ^ 63 ≤ (2 ^ 63 : Int) ∧ (2 ^ 63 : Int) ≤ 2 ^ 63 - 1) ∧ decimal (2 ^ 63) = tooGreat) ∧
    naturalValue ('0' :: tooGreat) = some 9223372036854775808 ∧
    naturalValue (tooGreat ++ ['0']) = some 92233720368547758080 ∧ ∀ ch ∈ '-' :: '0' :: tooGreat, ch ≠ ',' := by
  refine ⟨⟨['1'], rfl⟩, ⟨['2'], rfl⟩, by simp, by decide, ⟨['1'], ['2'], by decide, rfl⟩, ⟨by decide, ?_⟩, ?_, ?_,
    by simp [tooGreat]⟩
  · simp [decimal, Nat.toDigits, Nat.toDigitsCore, tooGreat]
  · simp [naturalValue, digitsValue, digitValue, tooGreat]
  · simp [naturalValue, digitsValue, digitValue, tooGreat]

theorem witness_StepKeepsTheInvariant : (alone sender []).Inv ∧ goesOn (step (alone sender [])) = true :=
  ⟨alone_inv ⟨by decide, by decide, by decide, by decide⟩ rfl rfl [], by decide⟩

/-- Both cores of the pair have a step, on the same channel. -/
theorem witness_SchedulesCommute :
    (pair sender receiver [5]).Inv ∧ (0 : Nat) ≠ 1 ∧ (∃ t, move (.core 0) (pair sender receiver [5]) = .next t) ∧
    ∃ t, move (.core 1) (pair sender receiver [5]) = .next t :=
  ⟨pair_inv, by decide, goesOn_next (by decide), goesOn_next (by decide)⟩

end Sys2Proof.Tests
end

/-! SUPPORT. What every step of the platform keeps. A core's move keeps its endpoints and what of the channels has been given
up; the host adds cores and channels and gives up ends, and changes no core. Then the obligations of these invariants. -/

namespace Sys2Proof.Machine

/-- Replacing an element by one that a function does not tell from it changes nothing of what the function shows. -/
theorem map_set_of_apply_eq {α β : Type} {f : α → β} {l : List α} {j : Nat} {a a' : α} (hget : l[j]? = some a)
    (hf : f a' = f a) : (l.set j a').map f = l.map f := by
  have hfget : (l.map f)[j]? = some (f a) := by rw [List.getElem?_map, hget]; rfl
  obtain ⟨hj, hfj⟩ := List.getElem?_eq_some_iff.1 hfget
  rw [List.map_set, hf, ← hfj, List.set_getElem_self]

/-! What the invariant sees of cores and channels. -/

/-- The two endpoints of a core (10_state.md R17). -/
def CoreState.ends (c : CoreState) : Option Nat × Option Nat := (c.inCh, c.outCh)

/-- Which ends of a channel have been given up (42_io.md R103). -/
def Channel.givenUp (ch : Channel) : Bool × Bool := (ch.producerClosed, ch.consumerDropped)

@[simp] theorem Channel.produce_givenUp (ch : Channel) (v : I64) : (ch.produce v).givenUp = ch.givenUp := by
  unfold Channel.produce
  split <;> rfl

/-- No end this core holds has been given up. -/
def CoreState.endsOpen (c : CoreState) (chans : List Channel) : Prop :=
  ∀ k ch, chans[k]? = some ch →
    (c.outCh = some k → ch.producerClosed = false) ∧ (c.inCh = some k → ch.consumerDropped = false)

variable {s t : State} {c c' : CoreState} {chans chans' : List Channel}

theorem State.endsLive_iff : s.endsLive ↔ ∀ c ∈ s.cores, c.status = .running → c.endsOpen s.chans := Iff.rfl

/-- The wiring speaks of the endpoints of the cores and the number of channels alone. -/
theorem State.wired_iff_ends : s.wired ↔
    ((s.cores.map CoreState.ends).filterMap Prod.fst).Nodup ∧ ((s.cores.map CoreState.ends).filterMap Prod.snd).Nodup ∧
      ∀ e ∈ s.cores.map CoreState.ends, (∀ k, e.1 = some k → k < s.chans.length) ∧
        (∀ k, e.2 = some k → k < s.chans.length) ∧ ∀ k, e.1 = some k → e.2 ≠ some k := by
  have hin : Prod.fst ∘ CoreState.ends = CoreState.inCh := rfl
  have hout : Prod.snd ∘ CoreState.ends = CoreState.outCh := rfl
  simp only [List.filterMap_map, hin, hout, List.forall_mem_map, forall_and]
  rfl

theorem State.wired_of_ends_eq (hends : t.cores.map CoreState.ends = s.cores.map CoreState.ends)
    (hlen : s.chans.length ≤ t.chans.length) (h : s.wired) : t.wired := by
  rw [State.wired_iff_ends] at h ⊢
  obtain ⟨hin, hout, hall⟩ := h
  rw [hends]
  refine ⟨hin, hout, fun e he => ?_⟩
  obtain ⟨hi, ho, hapart⟩ := hall e he
  exact ⟨fun k hk => (hi k hk).trans_le hlen, fun k hk => (ho k hk).trans_le hlen, hapart⟩

theorem CoreState.endsOpen_of_eq (hends : c'.ends = c.ends)
    (hup : chans'.map Channel.givenUp = chans.map Channel.givenUp) (h : c.endsOpen chans) : c'.endsOpen chans' := by
  intro k ch' hch'
  have hk : (chans.map Channel.givenUp)[k]? = some ch'.givenUp := by rw [← hup, List.getElem?_map, hch']; rfl
  rw [List.getElem?_map, Option.map_eq_some_iff] at hk
  obtain ⟨ch, hch, hflags⟩ := hk
  obtain ⟨hclosed, hdropped⟩ := Prod.mk.inj hflags
  obtain ⟨hin, hout⟩ := Prod.mk.inj hends
  rw [hin, hout, ← hclosed, ← hdropped]
  exact h k ch hch

/-- A new channel has no end given up. -/
theorem CoreState.endsOpen_append_new (h : c.endsOpen chans) : c.endsOpen (chans ++ [Channel.new]) := by
  intro k ch hch
  rw [List.getElem?_append] at hch
  split at hch
  · exact h k ch hch
  · rw [List.getElem?_singleton] at hch
    split at hch
    · cases hch; exact ⟨fun _ => rfl, fun _ => rfl⟩
    · cases hch

/-- One channel is replaced: of its ends the core may hold those alone that are not given up. -/
theorem CoreState.endsOpen_set {k : Nat} {ch : Channel} (h : c.endsOpen chans)
    (hout : c.outCh = some k → ch.producerClosed = false) (hin : c.inCh = some k → ch.consumerDropped = false) :
    c.endsOpen (chans.set k ch) := by
  intro k' ch' hch'
  rw [List.getElem?_set] at hch'
  split at hch'
  · rename_i hk
    subst hk
    split at hch'
    · cases hch'; exact ⟨hout, hin⟩
    · cases hch'
  · exact h k' ch' hch'

/-! A core's move. -/

theorem CoreEffect.ends_eq {i : Instr} (he : CoreEffect i c c') : c'.ends = c.ends := by
  simp only [CoreState.ends, he.inCh, he.outCh]

/-- An instruction fetched whole from memory keeps its core legal. -/
theorem CoreEffect.legal {i : Instr} (he : CoreEffect i c c')
    (hfit : c'.pc = c.pc ∨ c.pc + i.length ≤ c.params.memCap) (h : c.legal) : c'.legal := by
  obtain ⟨hcap, hwf, hbelow, hpc⟩ := h
  have hpc' : c'.pc ≤ Config.memCapMax := by
    rcases he.pc with hp | hp | ⟨w, -, hp⟩
    · omega
    · omega
    · have := BitVec.toInt_lt (x := w)
      rw [hp, Config.memCapMax]; omega
  have hmem : c'.mem.wf = true ∧ c'.mem.below c.params.memCap = true := by
    rcases he.mem with hm | ⟨a, v, ha, hm⟩
    · rw [hm]; exact ⟨hwf, hbelow⟩
    · rw [hm]; exact ⟨Memory.wf_write a v hwf, Memory.below_write v hbelow ha⟩
  unfold CoreState.legal
  rw [he.params]
  exact ⟨hcap, hmem.1, hmem.2, hpc'⟩

/-- Instructions close and drop no end. -/
theorem ChanEffect.givenUp_eq (h : ChanEffect c chans chans') :
    chans'.map Channel.givenUp = chans.map Channel.givenUp := by
  rcases h with rfl | ⟨k, ch, v, -, hch, rfl⟩ | ⟨k, ch, v, vs, -, hch, -, rfl⟩
  · rfl
  · exact map_set_of_apply_eq hch (Channel.produce_givenUp ch v)
  · exact map_set_of_apply_eq hch rfl

/-- The move of core `j` keeps the invariant. -/
theorem State.Inv.of_core_move {i : Instr} {j : Nat} (h : s.Inv) (hget : s.cores[j]? = some c) (hrun : c.status = .running)
    (hcores : t.cores = s.cores.set j c') (he : CoreEffect i c c') (hch : ChanEffect c s.chans t.chans)
    (hfit : c'.pc = c.pc ∨ c.pc + i.length ≤ c.params.memCap) : t.Inv := by
  obtain ⟨hlegal, hwired, hlive⟩ := h
  have hmem : c ∈ s.cores := List.mem_of_getElem? hget
  have hup := hch.givenUp_eq
  have hlen : t.chans.length = s.chans.length := by simpa using congrArg List.length hup
  refine ⟨fun d hd => ?_, ?_, State.endsLive_iff.2 fun d hd hdrun => ?_⟩
  · rw [hcores] at hd
    rcases List.mem_or_eq_of_mem_set hd with hd | rfl
    · exact hlegal d hd
    · exact he.legal hfit (hlegal c hmem)
  · exact State.wired_of_ends_eq (hcores ▸ map_set_of_apply_eq hget he.ends_eq) hlen.ge hwired
  · rw [hcores] at hd
    rcases List.mem_or_eq_of_mem_set hd with hd | rfl
    · exact CoreState.endsOpen_of_eq rfl hup (hlive d hd hdrun)
    · exact CoreState.endsOpen_of_eq he.ends_eq hup (hlive c hmem hrun)

/-! A step of the host. -/

/-- A constructed core is legal (60_exceptions.md R161). -/
theorem CoreState.new_legal {params : Params} {p : List I64} (h : constructible params p = true) (i o : Option Nat) :
    (CoreState.new params p i o).legal := by
  simp only [constructible, Bool.and_eq_true, decide_eq_true_eq] at h
  obtain ⟨hfit, hcap⟩ := h
  exact ⟨hcap, Memory.wf_ofCells p, Memory.below_ofCells 0 p ((Nat.zero_add _).trans_le hfit), Nat.zero_le _⟩

/-- An end that no core holds is still held once when a new core is given it. -/
theorem nodup_filterMap_append_of_fresh {f : CoreState → Option Nat} {l : List CoreState} {d : CoreState}
    (h : (l.filterMap f).Nodup) (hfresh : ∀ k, f d = some k → ∀ c ∈ l, f c ≠ some k) :
    ((l ++ [d]).filterMap f).Nodup := by
  rw [List.filterMap_append]
  cases hd : f d with
  | none => simpa [hd] using h
  | some k =>
    have hk : k ∉ l.filterMap f := by simpa [List.mem_filterMap] using hfresh k hd
    simpa [hd] using List.nodup_append_comm.1 (List.nodup_cons.2 ⟨hk, h⟩)

/-- A platform stays wired when a core is constructed with ends the host hands out (10_state.md R17, R18). -/
theorem State.wired_construct {params : Params} {p : List I64} {i o : Option Nat} (hgive : s.endsCanBeGiven i o = true)
    (hcores : t.cores = s.cores ++ [CoreState.new params p i o]) (hchans : t.chans = s.chans) (h : s.wired) :
    t.wired := by
  obtain ⟨hin, hout, hinLt, houtLt, hapart⟩ := h
  obtain ⟨hi, ho, hio⟩ := State.endsCanBeGiven_iff.1 hgive
  unfold State.wired
  rw [hcores, hchans]
  simp only [List.forall_mem_append, List.forall_mem_singleton]
  refine ⟨nodup_filterMap_append_of_fresh hin fun k hk => (hi k hk).2,
    nodup_filterMap_append_of_fresh hout fun k hk => (ho k hk).2, ⟨hinLt, fun k hk => ?_⟩, ⟨houtLt, fun k hk => ?_⟩,
    hapart, hio⟩
  · obtain ⟨⟨ch, hch, -⟩, -⟩ := hi k hk
    exact (List.getElem?_eq_some_iff.1 hch).1
  · obtain ⟨⟨ch, hch, -⟩, -⟩ := ho k hk
    exact (List.getElem?_eq_some_iff.1 hch).1

/-- The ends the host hands out have not been given up. -/
theorem CoreState.new_endsOpen {params : Params} {p : List I64} {i o : Option Nat}
    (hgive : s.endsCanBeGiven i o = true) : (CoreState.new params p i o).endsOpen s.chans := by
  obtain ⟨hi, ho, -⟩ := State.endsCanBeGiven_iff.1 hgive
  intro k ch hch
  constructor
  · intro hk
    obtain ⟨⟨ch', hch', hclosed⟩, -⟩ := ho k hk
    cases hch.symm.trans hch'
    exact hclosed
  · intro hk
    obtain ⟨⟨ch', hch', hdropped⟩, -⟩ := hi k hk
    cases hch.symm.trans hch'
    exact hdropped

/-- A Running core does not hold an end whose holders have all stopped (60_exceptions.md R174). -/
theorem State.producerStopped_ne {k : Nat} (h : s.producerStopped k = true) (hc : c ∈ s.cores)
    (hrun : c.status = .running) : c.outCh ≠ some k := by
  have := List.all_eq_true.1 h c hc
  simpa [CoreState.stopped, hrun] using this

theorem State.consumerStopped_ne {k : Nat} (h : s.consumerStopped k = true) (hc : c ∈ s.cores)
    (hrun : c.status = .running) : c.inCh ≠ some k := by
  have := List.all_eq_true.1 h c hc
  simpa [CoreState.stopped, hrun] using this

/-- The host changes no core (20_memory.md R44): it constructs one, or leaves the cores as they are. -/
theorem HostEffect.cores_eq (he : HostEffect s t) : t.cores = s.cores ∨ ∃ params p i o,
    t.cores = s.cores ++ [CoreState.new params p i o] ∧ s.endsCanBeGiven i o = true ∧
      constructible params p = true ∧ t.chans = s.chans := by
  cases he with
  | construct params p i o hgive hfit hcores hchans => exact .inr ⟨params, p, i, o, hcores, hgive, hfit, hchans⟩
  | quiet hcores _ => exact .inl hcores
  | newChannel hcores _ => exact .inl hcores
  | produce _ _ _ _ _ hcores _ => exact .inl hcores
  | closeProducer _ _ _ _ hcores _ => exact .inl hcores
  | dropConsumer _ _ _ _ hcores _ => exact .inl hcores
  | drain _ _ _ _ _ _ _ hcores _ => exact .inl hcores

theorem HostEffect.getElem?_cores {j : Nat} (he : HostEffect s t) (hget : s.cores[j]? = some c) :
    t.cores[j]? = some c := by
  rcases he.cores_eq with hcores | ⟨params, p, i, o, hcores, -⟩
  · rw [hcores, hget]
  · rw [hcores, List.getElem?_append_left (List.getElem?_eq_some_iff.1 hget).1, hget]

/-- The host removes no channel. -/
theorem HostEffect.chans_length_le (he : HostEffect s t) : s.chans.length ≤ t.chans.length := by
  cases he <;> rename_i hchans <;> simp [hchans]

/-- The host gives up no end of a Running core (60_exceptions.md R174). -/
theorem HostEffect.endsOpen (he : HostEffect s t) (hc : c ∈ s.cores) (hrun : c.status = .running)
    (h : c.endsOpen s.chans) : c.endsOpen t.chans := by
  cases he with
  | quiet _ hchans => rwa [hchans]
  | newChannel _ hchans => exact hchans ▸ CoreState.endsOpen_append_new h
  | construct _ _ _ _ _ _ _ hchans => rwa [hchans]
  | produce k ch v hch _ _ hchans =>
    exact CoreState.endsOpen_of_eq rfl (hchans ▸ map_set_of_apply_eq hch (Channel.produce_givenUp ch v)) h
  | closeProducer k ch hch hold _ hchans =>
    have hne := State.producerStopped_ne hold hc hrun
    exact hchans ▸ CoreState.endsOpen_set h (fun hk => absurd hk hne) (h k ch hch).2
  | dropConsumer k ch hch hold _ hchans =>
    have hne := State.consumerStopped_ne hold hc hrun
    exact hchans ▸ CoreState.endsOpen_set h (h k ch hch).1 (fun hk => absurd hk hne)
  | drain k ch v vs hch _ _ _ hchans =>
    exact CoreState.endsOpen_of_eq rfl (hchans ▸ map_set_of_apply_eq hch rfl) h

/-- A step of the host keeps the invariant. -/
theorem State.Inv.of_hostEffect (h : s.Inv) (he : HostEffect s t) : t.Inv := by
  obtain ⟨hlegal, hwired, hlive⟩ := h
  have hopen : ∀ c ∈ s.cores, c.status = .running → c.endsOpen t.chans := fun c hc hrun =>
    he.endsOpen hc hrun (hlive c hc hrun)
  rcases he.cores_eq with hcores | ⟨params, p, i, o, hcores, hgive, hfit, hchans⟩
  · exact ⟨hcores ▸ hlegal, State.wired_of_ends_eq (by rw [hcores]) he.chans_length_le hwired,
      State.endsLive_iff.2 (hcores ▸ hopen)⟩
  · refine ⟨?_, State.wired_construct hgive hcores hchans hwired, State.endsLive_iff.2 ?_⟩
    · rw [hcores, List.forall_mem_append, List.forall_mem_singleton]
      exact ⟨hlegal, CoreState.new_legal hfit i o⟩
    · rw [hcores, List.forall_mem_append, List.forall_mem_singleton]
      exact ⟨hopen, fun _ => hchans ▸ CoreState.new_endsOpen hgive⟩

/-! The obligations. -/

/-- Settles O59: a step is a core's move or the host's, and each keeps the invariant. -/
theorem stepKeepsTheInvariant : Obligations.StepKeepsTheInvariant := by
  intro s t hinv hstep
  rcases step_effect hstep with ⟨j, c, c', i, hget, hrun, hcores, he, hch, hfit, -⟩ | he
  · exact hinv.of_core_move hget hrun hcores he hch hfit
  · exact hinv.of_hostEffect he

/-- Settles O49: an instruction keeps the parameters and endpoints of its core, and no step touches another core. -/
theorem endpointsAndParametersAreFixed : Obligations.EndpointsAndParametersAreFixed := by
  intro s t j c hstep hget
  rcases step_effect hstep with ⟨j', d, d', i, hget', -, hcores, he, -⟩ | he
  · by_cases hj : j' = j
    · subst hj
      cases hget.symm.trans hget'
      have hnew : t.cores[j']? = some d' := by
        rw [hcores, List.getElem?_set_self (List.getElem?_eq_some_iff.1 hget).1]
      exact ⟨d', hnew, he.params, he.inCh, he.outCh⟩
    · exact ⟨c, by rw [hcores, List.getElem?_set_ne hj, hget], rfl, rfl, rfl⟩
  · exact ⟨c, he.getElem?_cores hget, rfl, rfl, rfl⟩

end Sys2Proof.Machine

/-! SUPPORT. What the state is at construction and reset, and what it becomes: memory as data, what fetching answers where an
instruction stands whole, what an instruction leaves of status and `pc`, what of the platform a core's move sees, and what the
host makes and reads. Then the obligations of the state (10_state.md). -/

namespace Sys2Proof.Machine

variable {s s' t u : State} {c c' : CoreState}

/-! Memory as data. -/

theorem Memory.read_cons_self (a : Nat) (v : I64) (m : Memory) : Memory.read ((a, v) :: m) a = v := by
  simp [Memory.read]

theorem Memory.wfFrom_cons_iff {lo a : Nat} {v : I64} {m : Memory} :
    Memory.wfFrom lo ((a, v) :: m) = true ↔ lo ≤ a ∧ v ≠ 0#64 ∧ Memory.wfFrom (a + 1) m = true := by
  simp [Memory.wfFrom, and_assoc]

/-- The first listed address is the least one that does not read 0. -/
theorem Memory.head_le_of_read_ne {lo a b : Nat} {v : I64} {m : Memory} (h : Memory.wfFrom lo ((a, v) :: m) = true)
    (hb : Memory.read ((a, v) :: m) b ≠ 0#64) : a ≤ b := by
  obtain ⟨-, hv, hm⟩ := Memory.wfFrom_cons_iff.1 h
  by_contra hlt
  exact hb (Memory.read_of_wfFrom (Memory.wfFrom_cons_iff.2 ⟨le_rfl, hv, hm⟩) (not_le.1 hlt))

/-- The cells behind the first listed one. -/
theorem Memory.read_tail {a b : Nat} {v : I64} {m : Memory} (h : Memory.wfFrom (a + 1) m = true) :
    Memory.read m b = if b = a then 0#64 else Memory.read ((a, v) :: m) b := by
  by_cases hb : b = a
  · rw [if_pos hb, Memory.read_of_wfFrom h (by omega)]
  · rw [if_neg hb, Memory.read, if_neg hb]

/-- Memories in canonical form are the same data when they read alike: their first listed address is the least one that
does not read 0, and behind it the same holds again. -/
theorem Memory.eq_of_read_eq {m m' : Memory} {lo lo' : Nat} (h : Memory.wfFrom lo m = true)
    (h' : Memory.wfFrom lo' m' = true) (hread : ∀ a, m.read a = m'.read a) : m = m' := by
  induction m generalizing m' lo lo' with
  | nil =>
    cases m' with
    | nil => rfl
    | cons cell' rest' =>
      obtain ⟨-, hv', -⟩ := Memory.wfFrom_cons_iff.1 h'
      exact absurd ((hread cell'.1).trans (Memory.read_cons_self ..)).symm hv'
  | cons cell rest ih =>
    obtain ⟨a, v⟩ := cell
    obtain ⟨-, hv, hrest⟩ := Memory.wfFrom_cons_iff.1 h
    cases m' with
    | nil => exact absurd ((Memory.read_cons_self ..).symm.trans (hread a)) hv
    | cons cell' rest' =>
      obtain ⟨a', v'⟩ := cell'
      obtain ⟨-, hv', hrest'⟩ := Memory.wfFrom_cons_iff.1 h'
      have ha : a = a' := le_antisymm
        (Memory.head_le_of_read_ne h (by rwa [hread a', Memory.read_cons_self]))
        (Memory.head_le_of_read_ne h' (by rwa [← hread a, Memory.read_cons_self]))
      subst ha
      have hvv : v = v' := by simpa only [Memory.read_cons_self] using hread a
      subst hvv
      rw [ih hrest hrest' fun b => by rw [Memory.read_tail hrest, hread b, ← Memory.read_tail hrest']]

theorem Memory.read_writeCells_of_lt {m : Memory} (h : m.wf = true) {a b : Nat} (cells : List I64) (hb : b < a) :
    (m.writeCells a cells).read b = m.read b := by
  induction cells generalizing m a with
  | nil => rfl
  | cons v vs ih =>
    rw [Memory.writeCells, ih (Memory.wf_write a v h) (by omega), Memory.read_write h, if_neg (by omega)]

/-- Cells placed in a memory stand there in order. -/
theorem Memory.read_writeCells {m : Memory} (h : m.wf = true) (a : Nat) {cells : List I64} {k : Nat} {v : I64}
    (hv : cells[k]? = some v) : (m.writeCells a cells).read (a + k) = v := by
  induction cells generalizing m a k with
  | nil => cases hv
  | cons w ws ih =>
    cases k with
    | zero =>
      cases hv
      rw [Memory.writeCells, Memory.read_writeCells_of_lt (Memory.wf_write a v h) ws (by omega), Memory.read_write h,
        if_pos (Nat.add_zero a)]
    | succ k =>
      rw [Memory.writeCells, Nat.add_comm k 1, ← Nat.add_assoc]
      exact ih (Memory.wf_write a w h) (a + 1) hv

/-- Settles O50, by induction along the two lists of cells. -/
theorem canonicalMemoriesAreDeterminedByTheirCells : Obligations.CanonicalMemoriesAreDeterminedByTheirCells :=
  fun _ _ h h' hread => Memory.eq_of_read_eq h h' hread

/-! Construction and reset. -/

/-- A constructed core holds its Program from cell 0 on, and 0 behind it (10_state.md R22). -/
theorem CoreState.new_read (params : Params) (p : List I64) (i o : Option Nat) (a : Nat) :
    (CoreState.new params p i o).mem.read a = p.getD a 0#64 :=
  (Memory.read_ofCells 0 p a).trans (if_neg (Nat.not_lt_zero a))

/-- Settles O15: memory by what a read of a loaded Program answers, every other field by construction. -/
theorem constructionLeavesTheResetValues : Obligations.ConstructionLeavesTheResetValues := by
  refine ⟨fun params p i o a => ⟨fun v hv => ?_, fun ha => ?_, rfl, rfl, rfl, rfl, rfl, rfl⟩, rfl, rfl, rfl⟩
  · rw [CoreState.new_read, List.getD_eq_getElem?_getD, hv, Option.getD_some]
  · rw [CoreState.new_read, List.getD_eq_default _ _ ha]

/-- Settles O17: a constructed core is legal, and reset has no endpoint and no channel. -/
theorem resetMeetsTheInvariant : Obligations.ResetMeetsTheInvariant := by
  have hcores : State.reset.cores = [CoreState.new { memCap := 2 ^ 63, strictInput := false } [] none none] := rfl
  refine ⟨?_, ?_, fun _ _ _ k ch hch => by cases hch⟩
  · rw [hcores, List.forall_mem_singleton]
    exact CoreState.new_legal (by decide) none none
  · simp [State.wired, hcores, CoreState.new]

/-! Fetching where an instruction stands. -/

/-- The mode slots and raw cells an instruction is built of: those of its own operands alone. -/
theorem Op.build_congr (op : Op) (d : Decoded) {raws raws' : List I64}
    (h : ∀ k < op.operandCount, raws[k]? = raws'[k]?) : op.build d raws = op.build d raws' := by
  cases op <;> simp_all [Op.build, operandAt, Op.operandCount]

theorem decode_cons_ok {w : I64} {rest rest' : List I64} {i : Instr} (h : decode (w :: rest) = .ok (i, rest')) :
    ∃ op d, selectOp w = .ok (op, d) ∧ i = op.build d (rest.take op.operandCount) := by
  unfold decode at h
  split at h
  · cases h
  · rename_i hcells
    cases hcells
    split at h
    · cases h
    · rename_i op d hsel
      split at h
      · cases h
      · cases h; exact ⟨op, d, hsel, rfl⟩

theorem Op.operandCount_le (op : Op) : op.operandCount ≤ Config.maxOperands := by
  cases op <;> decide

/-- Fetching answers the instruction that stands at `pc`. -/
theorem CoreState.fetch_of_standsAtPc {i : Instr} (h : c.standsAtPc i) : c.fetch = .ok i := by
  obtain ⟨hlen, rest, hdec⟩ := h
  obtain ⟨op, d, hsel, rfl⟩ := decode_cons_ok hdec
  rw [Op.build_length] at hlen
  refine CoreState.fetch_ok.2 ⟨by omega, op, d, hsel, by omega, Op.build_congr op d fun k hk => ?_⟩
  have hk3 : k < 3 := hk.trans_le (Op.operandCount_le op)
  rw [List.getElem?_take_of_lt hk, List.getElem?_map, List.getElem?_range hk]
  interval_cases k <;> rfl

/-! The step of a core that is alone on the platform. -/

/-- A core alone, with a host that has nothing to do and no turn given: it is the only agent that can have a step. -/
structure State.IsAlone (s : State) : Prop where
  before : s.before = []
  after : s.after = []
  script : s.host.script = []
  turns : s.turns = []

theorem State.IsAlone.move_core (h : s.IsAlone) : move (.core 0) s = coreStep s := by
  have hnum : s.coreNumber = 0 := by rw [State.coreNumber, h.before]; rfl
  exact move_core_of_select (hnum ▸ State.select_self s)

/-- The step of a core alone is that core's, when it has one (60_exceptions.md R170). -/
theorem State.IsAlone.step_eq (h : s.IsAlone) (hnext : coreStep s = .next t) : step s = .next t := by
  have hagents : s.agents = [.core 0, .host] := by
    simp [State.agents, State.cores, h.before, h.after, List.range_succ]
  have hcore : hasStep s (.core 0) = true := by rw [hasStep, h.move_core, hnext]
  have hhost : hasStep s .host = false := by simp only [hasStep, move, hostStep, h.script]
  have hready : s.ready = [.core 0] := by simp [State.ready, hagents, hcore, hhost]
  simp only [step, platformStep, h.turns, hready, h.move_core, hnext]

theorem coreStep_of_fetch {i : Instr} (hrun : s.core.status = .running) (hi : s.core.fetch = .ok i) :
    coreStep s = exec i s := by
  simp only [coreStep, hrun, if_true, hi]

theorem exists_inputMissing_next (why : NoInput) (s : State) : ∃ t, inputMissing why s = .next t := by
  unfold inputMissing
  split <;> exact ⟨_, rfl⟩

theorem exists_finish_next (s : State) (r : Except Cause CoreState) : ∃ t, finish s r = .next t := by
  cases r <;> exact ⟨_, rfl⟩

/-- A core with no endpoint has no other agent to wait for: every instruction answers a next state. -/
theorem exists_exec_next_of_no_ends (i : Instr) (hin : s.core.inCh = none) (hout : s.core.outCh = none) :
    ∃ t, exec i s = .next t := by
  cases i with
  | input dst =>
    simp only [exec, execInput, inputTo, hin]
    split
    · exact ⟨_, rfl⟩
    · exact exists_inputMissing_next .noEndpoint s
  | output p0 =>
    simp only [exec, execOutput, produceOut, hout]
    split <;> exact ⟨_, rfl⟩
  | halt => exact ⟨_, rfl⟩
  | add | mul | jumpIfTrue | jumpIfFalse | lessThan | equals | adjustRelativeBase => exact exists_finish_next s _

/-- Four cells placed where a core fetches next stand at its `pc`. -/
theorem CoreState.placeAtPc_cellsAtPc (hwf : c.mem.wf = true) (v0 v1 v2 v3 : I64) :
    (c.placeAtPc [v0, v1, v2, v3]).cellsAtPc = [v0, v1, v2, v3] := by
  have hread : ∀ k v, [v0, v1, v2, v3][k]? = some v → (c.mem.writeCells c.pc [v0, v1, v2, v3]).read (c.pc + k) = v :=
    fun k v hv => Memory.read_writeCells hwf c.pc hv
  simp only [CoreState.cellsAtPc, CoreState.placeAtPc, List.cons.injEq, and_true]
  exact ⟨hread 0 v0 rfl, hread 1 v1 rfl, hread 2 v2 rfl, hread 3 v3 rfl⟩

theorem decode_of_decodeTableWord {nbits w : Nat} {i : Instr} (h : decodeTableWord nbits w = some i) :
    ∃ rest, decode (tableCells nbits w) = .ok (i, rest) := by
  unfold decodeTableWord at h
  split at h
  · cases h
  · rename_i rest hdec
    cases h; exact ⟨rest, hdec⟩

/-- Settles O16: after reset the core is alone and has no endpoint, so the step is its own, whatever is placed there. -/
theorem resetIsAConstructedCore : Obligations.ResetIsAConstructedCore := by
  refine ⟨rfl, State.IsAlone.step_eq ⟨rfl, rfl, rfl, rfl⟩ rfl, fun nbits w i hi => ?_⟩
  have hstands : (State.reset.withFetchWord nbits w).core.standsAtPc i := by
    obtain ⟨rest, hdec⟩ := decode_of_decodeTableWord hi
    have hlen : i.length ≤ 4 := Nat.add_le_add_left (Op.operandCount_le i.op) 1
    refine ⟨(Nat.zero_add i.length).trans_le (hlen.trans (show 4 ≤ 2 ^ 63 by decide)), rest, ?_⟩
    rw [← hdec]
    exact congrArg decode (CoreState.placeAtPc_cellsAtPc State.reset_mem_wf _ _ _ _)
  obtain ⟨t, ht⟩ := exists_exec_next_of_no_ends (s := State.reset.withFetchWord nbits w) i rfl rfl
  rw [ht]
  refine State.IsAlone.step_eq ⟨rfl, rfl, rfl, rfl⟩ ?_
  rw [coreStep_of_fetch rfl (CoreState.fetch_of_standsAtPc hstands), ht]

/-! What an instruction leaves of status and `pc`. -/

/-- The `pc` a conditional jump that completes leaves (43_jump.md R120, R121). -/
def CoreState.JumpPc (c : CoreState) (cond : I64 → Bool) (p0 p1 : Operand) (pc : Nat) : Prop :=
  ∃ v, c.readParam p0 = .ok v ∧ (cond v = false → pc = c.pc + 3) ∧
    (cond v = true → ∃ w, c.readParam p1 = .ok w ∧ (pc : Int) = w.toInt)

/-- The `pc` an instruction that completes leaves: the table of 10_state.md R12. -/
def CoreState.NextPc (c : CoreState) (i : Instr) (pc : Nat) : Prop :=
  match i with
  | .jumpIfTrue p0 p1 => c.JumpPc isNonzero p0 p1 pc
  | .jumpIfFalse p0 p1 => c.JumpPc (fun v => !isNonzero v) p0 p1 pc
  | .halt => pc = c.pc
  | i => pc = c.pc + i.length

/-- An instruction that completed: `pc` and status are what its own rules say. -/
structure Completes (i : Instr) (c c' : CoreState) : Prop where
  pc : c.NextPc i c'.pc
  status : c'.status = if i = .halt then .halted else c.status

theorem CoreState.jumpWhen_pc {cond : I64 → Bool} {p0 p1 : Operand} (h : c.jumpWhen cond p0 p1 = .ok c') :
    c.JumpPc cond p0 p1 c'.pc ∧ c'.status = c.status := by
  obtain ⟨v, hv, ⟨hc, rfl⟩ | ⟨hc, w, hw, h0, rfl⟩⟩ := CoreState.jumpWhen_ok.1 h
  · exact ⟨⟨v, hv, fun _ => rfl, fun h1 => by simp [hc] at h1⟩, rfl⟩
  · exact ⟨⟨v, hv, fun h1 => by simp [hc] at h1, fun _ => ⟨w, hw, Int.toNat_of_nonneg h0⟩⟩, rfl⟩

theorem finish_completes {i : Instr} {r : Except Cause CoreState} (h : finish s r = .next t)
    (hr : ∀ c', r = .ok c' → Completes i s.core c') : (∃ e, t = s.raise e) ∨ Completes i s.core t.core := by
  rcases finish_next.1 h with ⟨e, -, rfl⟩ | ⟨c', hc', rfl⟩
  · exact .inl ⟨e, rfl⟩
  · exact .inr (hr c' hc')

/-- An instruction that answers a next state has raised a fault or completed. -/
theorem exec_raises_or_completes {i : Instr} (h : exec i s = .next t) :
    (∃ e, t = s.raise e) ∨ Completes i s.core t.core := by
  cases i with
  | add p0 p1 dst | mul p0 p1 dst =>
    refine finish_completes h fun c' hc' => ?_
    obtain ⟨a, b, v, ea, -, -, -, -, rfl⟩ := CoreState.arith_ok.1 hc'
    exact ⟨rfl, rfl⟩
  | lessThan p0 p1 dst | equals p0 p1 dst =>
    refine finish_completes h fun c' hc' => ?_
    obtain ⟨a, b, ea, -, -, -, rfl⟩ := CoreState.compare_ok.1 hc'
    exact ⟨rfl, rfl⟩
  | jumpIfTrue p0 p1 | jumpIfFalse p0 p1 =>
    refine finish_completes h fun c' hc' => ?_
    obtain ⟨hpc, hst⟩ := CoreState.jumpWhen_pc hc'
    exact ⟨hpc, hst⟩
  | adjustRelativeBase p0 =>
    refine finish_completes h fun c' hc' => ?_
    obtain ⟨a, v, -, -, rfl⟩ := CoreState.adjustRb_ok.1 hc'
    exact ⟨rfl, rfl⟩
  | input dst =>
    rcases execInput_next h with hraise | rfl | ⟨ea, k, ch, v, vs, -, -, -, -, rfl⟩
    · exact .inl hraise
    · exact .inr ⟨rfl, rfl⟩
    · exact .inr ⟨rfl, rfl⟩
  | output p0 =>
    rcases execOutput_next h with hraise | ⟨v, -, ⟨-, rfl⟩ | ⟨k, ch, -, -, rfl⟩⟩
    · exact .inl hraise
    · exact .inr ⟨rfl, rfl⟩
    · exact .inr ⟨rfl, rfl⟩
  | halt => cases h; exact .inr ⟨rfl, rfl⟩

/-- An instruction that leaves its core Running has completed. -/
theorem exec_completes {i : Instr} (h : exec i s = .next t) (hrun : t.core.status = .running) :
    Completes i s.core t.core := by
  rcases exec_raises_or_completes h with ⟨e, rfl⟩ | hdone
  · cases hrun
  · exact hdone

theorem isNonzero_eq_true {v : I64} : isNonzero v = true ↔ v.toInt ≠ 0 := decide_eq_true_iff

theorem isNonzero_eq_false {v : I64} : isNonzero v = false ↔ v.toInt = 0 := by
  simp [isNonzero]

/-- Settles O36: an instruction that leaves its core Running raised no fault, so it completed. -/
theorem pcFollowsTheTable : Obligations.PcFollowsTheTable := by
  intro i s t _ h
  refine ⟨?_, fun hrun => ⟨?_, ?_, ?_⟩⟩
  · rintro rfl
    cases h; rfl
  · rintro p0 p1 rfl
    obtain ⟨v, hv, hfall, htake⟩ := (exec_completes h hrun).pc
    exact ⟨v, hv, fun h0 => hfall (isNonzero_eq_false.2 h0), fun h0 => htake (isNonzero_eq_true.2 h0)⟩
  · rintro p0 p1 rfl
    obtain ⟨v, hv, hfall, htake⟩ := (exec_completes h hrun).pc
    exact ⟨v, hv, fun h0 => hfall (by simp [isNonzero_eq_true.2 h0]),
      fun h0 => htake (by simp [isNonzero_eq_false.2 h0])⟩
  · intro hjt hjf
    have hpc := (exec_completes h hrun).pc
    cases i with
    | jumpIfTrue => exact absurd rfl hjt
    | jumpIfFalse => exact absurd rfl hjf
    | halt => cases h; cases hrun
    | _ => exact hpc

/-! A step of the platform, seen from one core. -/

/-- A core's own step that leaves it Halted ran a Halt. -/
theorem coreStep_halted (h : coreStep s = .next t) (hhalt : t.core.status = .halted) :
    s.core.fetch = .ok .halt ∧ t.core = { s.core with status := .halted } := by
  obtain ⟨hrun, ⟨e, -, rfl⟩ | ⟨i, hi, hx⟩⟩ := coreStep_next h
  · cases hhalt
  · rcases exec_raises_or_completes hx with ⟨e, rfl⟩ | hdone
    · cases hhalt
    · have hst := hdone.status
      rw [hhalt, hrun] at hst
      split at hst
      · rename_i hi'
        subst hi'
        cases hx
        exact ⟨hi, rfl⟩
      · cases hst

/-- A core's move acts on that core and leaves the number and the list of the others (10_state.md R23). -/
theorem move_core_frame {j : Nat} (h : move (.core j) s = .next t) :
    ∃ u, s.select j = some u ∧ coreStep u = .next t ∧ s.cores[j]? = some u.core ∧ t.cores[j]? = some t.core ∧
      ∀ k, k ≠ j → t.cores[k]? = s.cores[k]? := by
  obtain ⟨u, hu, hstep⟩ := move_core_next h
  obtain ⟨hcores, rfl, hget, -⟩ := State.select_spec hu
  obtain ⟨-, c', chans', i, rfl, -⟩ := coreStep_effect hstep
  refine ⟨u, hu, hstep, hget, State.withCore_cores_self u c', fun k hk => ?_⟩
  rw [← hcores]
  exact State.withCore_cores_other u c' hk

/-- A step of the platform and a core: the core moves, or it is as it was (10_state.md R23, 60_exceptions.md R170). -/
theorem step_core {j : Nat} (h : step s = .next t) (hget : s.cores[j]? = some c) :
    t.cores[j]? = some c ∨ ∃ u, u.core = c ∧ coreStep u = .next t ∧ t.cores[j]? = some t.core := by
  obtain ⟨a, turns, tick, hm⟩ := step_next h
  cases a with
  | host => exact .inl ((hostStep_effect hm).1.getElem?_cores hget)
  | core k =>
    obtain ⟨u, -, hstep, hget', hnew, hother⟩ := move_core_frame hm
    by_cases hk : j = k
    · subst hk
      exact .inr ⟨u, Option.some.inj (hget'.symm.trans hget), hstep, hnew⟩
    · exact .inl ((hother j hk).trans hget)

/-- Settles O38: a core that moves is Running. -/
theorem stoppedCoresNeverChange : Obligations.StoppedCoresNeverChange := by
  intro s t j c h hget hstop
  rcases step_core h hget with hsame | ⟨u, rfl, hstep, -⟩
  · exact hsame
  · exact absurd (coreStep_next hstep).1 hstop

/-- Settles O39: a core whose status changes has moved, and of the instructions that complete Halt alone leaves it Halted. -/
theorem onlyHaltHalts : Obligations.OnlyHaltHalts := by
  intro s t j c c' h hget hget' hrun hhalt
  rcases step_core h hget with hsame | ⟨u, rfl, hstep, hnew⟩
  · cases hsame.symm.trans hget'
    rw [hrun] at hhalt; cases hhalt
  · cases hnew.symm.trans hget'
    exact coreStep_halted hstep hhalt

/-- An instruction changes no channel its core holds no end of. -/
theorem ChanEffect.getElem?_eq {chans chans' : List Channel} {k : Nat} (h : ChanEffect c chans chans')
    (hin : c.inCh ≠ some k) (hout : c.outCh ≠ some k) : chans'[k]? = chans[k]? := by
  rcases h with rfl | ⟨k', ch, v, hk', -, rfl⟩ | ⟨k', ch, v, vs, hk', -, -, rfl⟩
  · rfl
  · exact List.getElem?_set_ne fun hkk : k' = k => hout (hkk ▸ hk')
  · exact List.getElem?_set_ne fun hkk : k' = k => hin (hkk ▸ hk')

/-- Settles O40: of the cores by the frame of a move, of the channels by what an instruction can do to them. -/
theorem coresShareOnlyChannels : Obligations.CoresShareOnlyChannels := by
  intro s t j c h hget
  obtain ⟨-, -, -, -, -, hothers⟩ := move_core_frame h
  obtain ⟨d, d', i, hget', -, -, -, hch, -, hhost, -⟩ := move_core_effect h
  cases hget.symm.trans hget'
  exact ⟨hothers, hhost, fun k hin hout => hch.getElem?_eq hin hout⟩

/-! The result of a storing instruction. -/

theorem finish_completed {r : Except Cause CoreState} (h : finish s r = .next t) (hrun : t.core.status = .running) :
    ∃ c', r = .ok c' ∧ t = s.withCore c' := by
  rcases finish_next.1 h with ⟨e, -, rfl⟩ | hdone
  · cases hrun
  · exact hdone

/-- The cell just stored to, in canonical memory. -/
theorem CoreState.store_read_self (hwf : c.mem.wf = true) (a : Nat) (v : I64) : (c.store a v).mem.read a = v := by
  rw [CoreState.store_mem, Memory.read_write hwf, if_pos rfl]

section Stores

variable {p0 p1 dst : Operand} {ea : Nat} {a b : I64} (hwf : s.core.mem.wf = true) (hrun : t.core.status = .running)
  (hea : s.core.writeAddr dst = .ok ea) (ha : s.core.readParam p0 = .ok a) (hb : s.core.readParam p1 = .ok b)
include hwf hrun hea ha hb

/-- Add and Multiply leave the exact result in the cell of their destination (41_arithmetic.md R91, R92). -/
theorem arith_stores {f : Int → Int → Int} (h : finish s (s.core.arith f p0 p1 dst) = .next t) :
    (t.core.mem.read ea).toInt = f a.toInt b.toInt := by
  obtain ⟨c', hc', rfl⟩ := finish_completed h hrun
  obtain ⟨a', b', v, ea', ha', hb', hv, hea', rfl⟩ := CoreState.arith_ok.1 hc'
  cases ha.symm.trans ha'
  cases hb.symm.trans hb'
  cases hea.symm.trans hea'
  rw [← hv]
  exact congrArg BitVec.toInt (CoreState.store_read_self hwf ea v)

/-- LessThan and Equals leave 1 or 0 in the cell of their destination (44_compare.md R130, R131). -/
theorem compare_stores {f : I64 → I64 → Bool} (h : finish s (s.core.compare f p0 p1 dst) = .next t) :
    (t.core.mem.read ea).toInt = if f a b then 1 else 0 := by
  obtain ⟨c', hc', rfl⟩ := finish_completed h hrun
  obtain ⟨a', b', ea', ha', hb', hea', rfl⟩ := CoreState.compare_ok.1 hc'
  cases ha.symm.trans ha'
  cases hb.symm.trans hb'
  cases hea.symm.trans hea'
  have hread : (s.core.store ea (truthValue (f a b))).mem.read ea = truthValue (f a b) :=
    CoreState.store_read_self hwf ea _
  refine (congrArg BitVec.toInt hread).trans ?_
  cases f a b <;> rfl

end Stores

/-- An Input that finds a value stores the oldest one (42_io.md R105). -/
theorem execInput_of_value {dst : Operand} {ea k : Nat} {ch : Channel} {v : I64} {vs : List I64}
    (hea : s.core.writeAddr dst = .ok ea) (hk : s.core.inCh = some k) (hch : s.chans[k]? = some ch)
    (hq : ch.q = v :: vs) : execInput dst s =
      .next ((s.withCore ((s.core.store ea v).advance 2)).withChan k { ch with q := vs }) := by
  have hcons : ch.consume = .value v { ch with q := vs } := Channel.consume_value.2 ⟨vs, hq, rfl⟩
  simp only [execInput, inputTo, hea, hk, hch, hcons]

/-- Settles O35: the instruction completed, so it stored, and the cell stored to is read back. -/
theorem writtenCellHoldsTheResult : Obligations.WrittenCellHoldsTheResult := by
  intro s t p0 p1 dst ea hwf _ hrun hea
  refine ⟨fun a b ha hb => ⟨arith_stores hwf hrun hea ha hb, arith_stores hwf hrun hea ha hb, fun h => ?_, fun h => ?_⟩,
    fun k ch v vs hk hch hq h => ?_⟩
  · simpa [lessThan] using compare_stores hwf hrun hea ha hb h
  · simpa [sameValue] using compare_stores hwf hrun hea ha hb h
  · cases (execInput_of_value hea hk hch hq).symm.trans h
    exact CoreState.store_read_self hwf ea v

/-! What of the platform a core's move sees. -/

/-- Two platforms a core that owns the ends of the channels `own` cannot tell apart. -/
structure State.AgreeOn (own : Nat → Prop) (s s' : State) : Prop where
  core : s'.core = s.core
  chans : ∀ k, own k → s'.chans[k]? = s.chans[k]?

/-- Outcomes such a core cannot tell apart: the same reason for having no next state, or next states that agree. -/
inductive ResultsAgree (own : Nat → Prop) : Result → Result → Prop
  | next {t t' : State} (h : t.AgreeOn own t') : ResultsAgree own (.next t) (.next t')
  | fault (f : Fault) : ResultsAgree own (.fault f) (.fault f)
  | refused (r : Refusal) : ResultsAgree own (.refused r) (.refused r)

theorem ResultsAgree.exists_next {own : Nat → Prop} {r r' : Result} (h : ResultsAgree own r r') (hr : r = .next t) :
    ∃ t', r' = .next t' ∧ t.AgreeOn own t' := by
  cases h with
  | next h => cases hr; exact ⟨_, rfl, h⟩
  | fault | refused => cases hr

section Agree

variable {own : Nat → Prop} (h : s.AgreeOn own s')
include h

theorem State.AgreeOn.withCore (c : CoreState) : (s.withCore c).AgreeOn own (s'.withCore c) := ⟨rfl, h.chans⟩

theorem State.AgreeOn.withChan (k : Nat) (ch : Channel) : (s.withChan k ch).AgreeOn own (s'.withChan k ch) :=
  ⟨h.core, fun m hm => by simp only [State.withChan_chans, List.getElem?_set', h.chans m hm]⟩

theorem State.AgreeOn.raise (e : Cause) : (s.raise e).AgreeOn own (s'.raise e) := by
  unfold State.raise
  rw [h.core]
  exact h.withCore _

theorem State.AgreeOn.finish (r : Except Cause CoreState) : ResultsAgree own (finish s r) (finish s' r) := by
  cases r with
  | error e => exact .next (h.raise e)
  | ok c => exact .next (h.withCore c)

theorem State.AgreeOn.inputMissing (why : NoInput) : ResultsAgree own (inputMissing why s) (inputMissing why s') := by
  unfold Machine.inputMissing
  rw [h.core]
  split
  · exact .next (h.raise _)
  · exact .next (h.withCore _)

theorem State.AgreeOn.execInput (hin : ∀ k, s.core.inCh = some k → own k) (dst : Operand) :
    ResultsAgree own (execInput dst s) (execInput dst s') := by
  unfold Machine.execInput
  rw [h.core]
  cases s.core.writeAddr dst with
  | error e => exact .next (h.raise e)
  | ok ea =>
    simp only [inputTo, h.core]
    cases hk : s.core.inCh with
    | none => exact h.inputMissing .noEndpoint
    | some k =>
      simp only [h.chans k (hin k hk)]
      cases s.chans[k]? with
      | none => exact .fault .noSuchChannel
      | some ch =>
        cases hc : ch.consume with
        | value v rest => simp only [hc]; exact .next ((h.withCore _).withChan k rest)
        | closed => simp only [hc]; exact h.inputMissing .closed
        | wouldBlock => simp only [hc]; exact .fault .blocked

theorem State.AgreeOn.execOutput (hout : ∀ k, s.core.outCh = some k → own k) (p0 : Operand) :
    ResultsAgree own (execOutput p0 s) (execOutput p0 s') := by
  unfold Machine.execOutput
  rw [h.core]
  cases s.core.readParam p0 with
  | error e => exact .next (h.raise e)
  | ok v =>
    simp only [produceOut, h.core]
    cases hk : s.core.outCh with
    | none => simp only [h.core]; exact .next (h.withCore _)
    | some k =>
      simp only [h.chans k (hout k hk)]
      cases s.chans[k]? with
      | none => exact .fault .noSuchChannel
      | some ch => simp only [State.withChan_core, h.core]; exact .next ((h.withChan k _).withCore _)

/-- An instruction sees of the platform its core and the channels that core holds ends of. -/
theorem State.AgreeOn.exec (hin : ∀ k, s.core.inCh = some k → own k) (hout : ∀ k, s.core.outCh = some k → own k)
    (i : Instr) : ResultsAgree own (exec i s) (exec i s') := by
  cases i with
  | input dst => exact h.execInput hin dst
  | output p0 => exact h.execOutput hout p0
  | halt =>
    simp only [Machine.exec, execHalt, h.core]
    exact .next (h.withCore _)
  | add | mul | jumpIfTrue | jumpIfFalse | lessThan | equals | adjustRelativeBase =>
    simp only [Machine.exec, execAdd, execMul, execJumpIfTrue, execJumpIfFalse, execLessThan, execEquals,
      execAdjustRelativeBase, h.core]
    exact h.finish _

theorem State.AgreeOn.coreStep (hin : ∀ k, s.core.inCh = some k → own k) (hout : ∀ k, s.core.outCh = some k → own k) :
    ResultsAgree own (coreStep s) (coreStep s') := by
  unfold Machine.coreStep
  rw [h.core]
  split
  · split
    · exact .next (h.raise _)
    · exact h.exec hin hout _
  · exact .fault .stopped

end Agree

/-- Settles O41: with core `j` selected the two platforms agree on all that its step sees. -/
theorem coreDependsOnItsOwnStateAndChannels : Obligations.CoreDependsOnItsOwnStateAndChannels := by
  intro s s' t j c hget hget' hchans hmove
  obtain ⟨u, hu, hstep, hucore, htcore, -⟩ := move_core_frame hmove
  obtain ⟨u', hu', hucore'⟩ := State.select_of_getElem? hget'
  obtain ⟨-, -, -, huchans, -⟩ := State.select_spec hu
  obtain ⟨-, -, -, huchans', -⟩ := State.select_spec hu'
  cases hget.symm.trans hucore
  have hagree : u.AgreeOn (fun k => u.core.inCh = some k ∨ u.core.outCh = some k) u' :=
    ⟨hucore', fun k hk => by rw [huchans, huchans', hchans k hk]⟩
  obtain ⟨t', hstep', ht'⟩ := (hagree.coreStep (fun _ => .inl) (fun _ => .inr)).exists_next hstep
  have hmove' : move (.core j) s' = .next t' := (move_core_of_select hu').trans hstep'
  obtain ⟨-, -, -, -, htcore', -⟩ := move_core_frame hmove'
  exact ⟨t', hmove', by rw [htcore, htcore', ht'.core], fun k hk => (ht'.chans k hk).symm⟩

/-! The host constructs, reads and runs cores. -/

/-- Construction from a loaded Program, with a capacity that is one (00_scope.md R6): first the ends, then the size. -/
theorem hostConstruct_of_program {n : Nat} {p : List I64} {params : Params} {i o : Option Nat}
    (hp : s.host.programs[n]? = some p) (hcap : params.memCap ≤ Config.memCapMax) :
    hostConstruct n params i o s =
      if s.endsCanBeGiven i o then
        if p.length ≤ params.memCap then .next { s with after := s.after ++ [CoreState.new params p i o] }
        else .refused .programTooLong
      else .refused .hostForbidden := by
  simp [hostConstruct, hp, hcap, constructible]

/-- An end of both sides, or one that a core holds, is none that the host hands out. -/
theorem State.endsCanBeGiven_eq_false {i o : Option Nat} {k : Nat}
    (h : i = some k ∧ o = some k ∨ i = some k ∧ (∃ c ∈ s.cores, c.inCh = some k) ∨
      o = some k ∧ ∃ c ∈ s.cores, c.outCh = some k) : s.endsCanBeGiven i o = false := by
  rw [Bool.eq_false_iff, ne_eq, State.endsCanBeGiven_iff]
  rintro ⟨hin, hout, hapart⟩
  rcases h with ⟨hi, ho⟩ | ⟨hi, c, hc, hk⟩ | ⟨ho, c, hc, hk⟩
  · exact hapart k hi ho
  · exact (hin k hi).2 c hc hk
  · exact (hout k ho).2 c hc hk

/-- Settles O56: construction looks at the ends first, then at the size. -/
theorem constructionNeedsAProgramThatFits : Obligations.ConstructionNeedsAProgramThatFits := by
  refine ⟨fun s text h => by simp only [hostAct, hostLoad, h], fun s text p h => by simp only [hostAct, hostLoad, h],
    fun s => rfl, fun s n p params i o hp hcap => ⟨fun hlong => ⟨?_, fun t => ?_⟩, fun hfit hin hout hapart => ?_,
      fun k hk => ?_⟩⟩
  all_goals simp only [hostAct, hostConstruct_of_program hp hcap]
  · have hgive : s.endsCanBeGiven none none = true := rfl
    rw [if_pos hgive, if_neg hlong.not_ge]
  · rw [if_neg hlong.not_ge]
    split <;> simp
  · rw [if_pos (State.endsCanBeGiven_iff.2 ⟨hin, hout, hapart⟩), if_pos hfit]
  · rw [State.endsCanBeGiven_eq_false hk, if_neg Bool.false_ne_true]

theorem CoreState.stopped_iff : c.stopped = true ↔ c.status ≠ .running := decide_eq_true_iff

/-- A Running core is not read (10_state.md R24). -/
theorem hostInspect_of_running {j : Nat} (hget : s.cores[j]? = some c) (hrun : c.status = .running)
    (read : CoreState → Result) : hostInspect j read s = .refused .runningCoreRead := by
  simp [hostInspect, hget, CoreState.stopped, hrun]

theorem hostInspect_of_stopped {j : Nat} (hget : s.cores[j]? = some c) (hstop : c.status ≠ .running)
    (read : CoreState → Result) : hostInspect j read s = read c := by
  simp only [hostInspect, hget, CoreState.stopped_iff.2 hstop, if_true]

/-- `run()` by the host tells the status of the core (40_execution_loop.md R78). -/
theorem hostRun_of_core {j : Nat} (hget : s.cores[j]? = some c) :
    (c.status = .running → hostRun j s = .fault .waiting) ∧ (c.status = .halted → hostRun j s = .next s) ∧
      ∀ e, c.status = .faulted e → hostRun j s = .next (s.hostGets (.runFaulted j e)) := by
  refine ⟨fun h => ?_, fun h => ?_, fun e h => ?_⟩ <;> simp only [hostRun, hget, h]

/-! Repeated steps of one core. -/

/-- What the result of a run says of core `j` in the state it comes with. -/
def RunEnd.Honest (j : Nat) : RunEnd → Prop
  | .returned t => ∃ c, t.cores[j]? = some c ∧ c.status = .halted
  | .faulted e t => ∃ c, t.cores[j]? = some c ∧ c.status = .faulted e
  | .waiting t => ∃ c, t.cores[j]? = some c ∧ c.status = .running ∧ ∀ u, move (.core j) t ≠ .next u
  | .unfinished t => t.runEnd? j = none
  | .noSuchCore => True

/-- A run that the status of its core ends, ends at once. -/
theorem State.runCore_of_runEnd {j : Nat} {r : RunEnd} (h : s.runEnd? j = some r) (n : Nat) : s.runCore j n = r := by
  cases n <;> simp only [State.runCore, h]

theorem State.runCore_zero {j : Nat} (h : s.runEnd? j = none) : s.runCore j 0 = .unfinished s := by
  simp only [State.runCore, h]

theorem State.runEnd?_honest {j : Nat} {r : RunEnd} (h : s.runEnd? j = some r) : r.Honest j := by
  unfold State.runEnd? at h
  split at h
  · cases h; trivial
  · rename_i c hget
    split at h <;> rename_i hst
    · cases h
    · cases h; exact ⟨c, hget, hst⟩
    · cases h; exact ⟨c, hget, hst⟩

theorem State.runEnd?_ne_unfinished (s t : State) (j : Nat) : s.runEnd? j ≠ some (.unfinished t) := by
  unfold State.runEnd?
  split
  · simp
  · split <;> simp

theorem State.runCore_honest_of_runEnd {j : Nat} {r : RunEnd} (h : s.runEnd? j = some r) (n : Nat) :
    (s.runCore j n).Honest j := by
  rw [State.runCore_of_runEnd h]
  exact State.runEnd?_honest h

/-- A run says of its core what holds (40_execution_loop.md R78). -/
theorem State.runCore_honest (s : State) (j n : Nat) : (s.runCore j n).Honest j := by
  induction n generalizing s with
  | zero =>
    cases hend : s.runEnd? j with
    | some r => exact State.runCore_honest_of_runEnd hend 0
    | none => rw [State.runCore_zero hend]; exact hend
  | succ n ih =>
    cases hend : s.runEnd? j with
    | some r => exact State.runCore_honest_of_runEnd hend (n + 1)
    | none =>
      obtain ⟨hgo, hwait⟩ := State.runCore_succ (n := n) hend
      by_cases hnext : ∃ u, move (.core j) s = .next u
      · obtain ⟨u, hu⟩ := hnext
        rw [hgo u hu]
        exact ih u
      · have hnone : ∀ u, move (.core j) s ≠ .next u := not_exists.1 hnext
        obtain ⟨c, hget, hrun⟩ := State.runEnd?_none.1 hend
        rw [hwait hnone]
        exact ⟨c, hget, hrun, hnone⟩

/-- A run that is not over began with its core Running. -/
theorem State.runEnd?_of_unfinished {j n : Nat} (h : s.runCore j n = .unfinished t) : s.runEnd? j = none := by
  cases hend : s.runEnd? j with
  | none => rfl
  | some r =>
    rw [State.runCore_of_runEnd hend] at h
    exact absurd (h ▸ hend) (State.runEnd?_ne_unfinished s t j)

/-- A run that its steps did not end goes on from where they came to. -/
theorem State.runCore_add {j n : Nat} (h : s.runCore j n = .unfinished t) (m : Nat) :
    s.runCore j (n + m) = t.runCore j m := by
  induction n generalizing s with
  | zero =>
    cases (State.runCore_zero (State.runEnd?_of_unfinished h)).symm.trans h
    rw [Nat.zero_add]
  | succ n ih =>
    have hend := State.runEnd?_of_unfinished h
    by_cases hnext : ∃ u, move (.core j) s = .next u
    · obtain ⟨u, hu⟩ := hnext
      rw [(State.runCore_succ hend).1 u hu] at h
      rw [Nat.add_right_comm, (State.runCore_succ hend).1 u hu, ih h]
    · rw [(State.runCore_succ hend).2 (not_exists.1 hnext)] at h
      cases h

/-- Settles O53: the reads by the status of the core, the runs by induction on the steps allowed. -/
theorem hostReadsOnlyStoppedCores : Obligations.HostReadsOnlyStoppedCores := by
  refine ⟨fun s j a c hget => ⟨fun hrun => ?_, fun hstop => ?_, hostRun_of_core hget⟩, fun s t j n => ?_⟩
  · exact ⟨hostInspect_of_running hget hrun _, hostInspect_of_running hget hrun _, hostInspect_of_running hget hrun _,
      hostInspect_of_running hget hrun _, hostInspect_of_running hget hrun _⟩
  · refine ⟨fun ha => ?_, hostInspect_of_stopped hget hstop _, hostInspect_of_stopped hget hstop _, fun v hv => ?_,
      fun hv => ?_, hostInspect_of_stopped hget hstop _⟩
    · exact (hostInspect_of_stopped hget hstop _).trans (if_pos ha)
    · exact (hostInspect_of_stopped hget hstop _).trans (by rw [hv])
    · exact (hostInspect_of_stopped hget hstop _).trans (by rw [hv])
  · have hhonest := s.runCore_honest j n
    exact ⟨fun h => by rwa [h] at hhonest, fun e h => by rwa [h] at hhonest, fun h => by rwa [h] at hhonest,
      fun h m => State.runCore_add h m⟩

end Sys2Proof.Machine

/-! SUPPORT. What the host's move leaves of the cores. Then the obligation of memory (20_memory.md). -/

namespace Sys2Proof.Machine

/-- The host's move is a step of its script, which alone says what it can do. -/
theorem move_host_effect {s t : State} (h : move .host s = .next t) : HostEffect s t :=
  (hostStep_effect h).1

/-- Settles O48: the host only appends cores, so each one that existed keeps its place and its contents. -/
theorem hostNeverWritesACore : Obligations.HostNeverWritesACore := by
  intro s t j c hmove hget
  exact (move_host_effect hmove).getElem?_cores hget

end Sys2Proof.Machine

/-! SUPPORT. What the decoder answers: the split of a word, the operation it selects, the cells an instruction takes. Then the
obligations of encoding and decoding (30_encoding.md). -/

namespace Sys2Proof.Machine

/-! The split of a word. -/

theorem decodeWord_of_neg {w : I64} (h : w.toInt < 0) : decodeWord w = none := if_pos h

theorem decodeWord_of_nonneg {w : I64} (h : 0 ≤ w.toInt) : decodeWord w = some (splitWord w.toInt.toNat) :=
  if_neg (not_lt.2 h)

@[simp] theorem splitWord_opcode (n : Nat) : (splitWord n).opcode = n % 100 := rfl

theorem splitWord_slot (n : Nat) {k : Nat} (hk : k < 5) : (splitWord n).slot k = Mode.ofDigit (digit k (n / 100)) := by
  interval_cases k <;> rfl

/-- The seven low decimal digits of a word are all that is decoded (R59). -/
theorem splitWord_mod (n : Nat) : splitWord (n % 10 ^ 7) = splitWord n := by
  simp only [splitWord, digit, Decoded.mk.injEq]
  refine ⟨?_, ?_, ?_, ?_, ?_, ?_⟩
  · omega
  all_goals exact congrArg Mode.ofDigit (by omega)

/-- Settles O2: a word that is not negative is a natural number, and its digits are those `splitWord` takes. -/
theorem decoderSplitsDecimalDigits : Obligations.DecoderSplitsDecimalDigits := by
  refine fun w => ⟨decodeWord_of_neg, fun h => ⟨_, decodeWord_of_nonneg h, ?_⟩⟩
  obtain ⟨n, hn⟩ := Int.eq_ofNat_of_zero_le h
  rw [hn, Int.toNat_natCast]
  refine ⟨by simp [splitWord], fun k hk => ?_⟩
  have hdigit : (n : Int) / 100 / 10 ^ k % 10 = (digit k (n / 100) : Nat) := by simp [digit]
  rw [splitWord_slot n hk, hdigit]
  exact ⟨fun h1 => if_pos (by omega), fun h2 => (if_neg (by omega)).trans (if_pos (by omega)),
    fun h1 h2 => (if_neg (by omega)).trans (if_neg (by omega))⟩

/-! The operation a word selects. -/

theorem Op.ofOpcode_eq_some_iff {n : Nat} {op : Op} : Op.ofOpcode n = some op ↔ op.opcode = n := by
  constructor
  · intro h
    unfold Op.ofOpcode at h
    split_ifs at h <;> cases h <;> exact Eq.symm ‹n = _›
  · rintro rfl
    cases op <;> rfl

theorem Op.opcode_injective : Function.Injective Op.opcode := fun _ _ h =>
  Option.some_injective _ ((Op.ofOpcode_eq_some_iff.2 h).symm.trans (Op.ofOpcode_eq_some_iff.2 rfl))

/-- The opcodes that select an instruction are 1 to 9 and 99 (R66). -/
theorem Op.exists_opcode_eq_iff {n : Nat} : (∃ op : Op, op.opcode = n) ↔ 1 ≤ n ∧ n ≤ 9 ∨ n = 99 := by
  constructor
  · rintro ⟨op, rfl⟩
    cases op <;> decide
  · intro h
    cases hop : Op.ofOpcode n with
    | some op => exact ⟨op, Op.ofOpcode_eq_some_iff.1 hop⟩
    | none =>
      unfold Op.ofOpcode at hop
      split_ifs at hop
      omega

/-- A word selects an operation just when it is not negative and `w mod 100` is that one's opcode (R52, R66). -/
theorem selectOp_ok_iff {w : I64} {op : Op} {d : Decoded} :
    selectOp w = .ok (op, d) ↔ 0 ≤ w.toInt ∧ (op.opcode : Int) = w.toInt % 100 ∧ d = splitWord w.toInt.toNat := by
  rcases lt_or_ge w.toInt 0 with hneg | hnonneg
  · simp [selectOp, decodeWord_of_neg hneg, not_le.2 hneg]
  · have hcode : (op.opcode : Int) = w.toInt % 100 ↔ Op.ofOpcode (w.toInt.toNat % 100) = some op := by
      rw [Op.ofOpcode_eq_some_iff]
      omega
    simp only [hcode, selectOp, decodeWord_of_nonneg hnonneg, splitWord_opcode]
    cases Op.ofOpcode (w.toInt.toNat % 100) <;> simp [hnonneg, eq_comm]

theorem selectOp_of_neg {w : I64} (h : w.toInt < 0) : selectOp w = .error .negativeWord := by
  rw [selectOp, decodeWord_of_neg h]

theorem selectOp_of_no_opcode {w : I64} (h : 0 ≤ w.toInt) (hnone : ∀ op : Op, (op.opcode : Int) ≠ w.toInt % 100) :
    selectOp w = .error (.unknownOpcode (w.toInt % 100).toNat) := by
  have hcode : w.toInt.toNat % 100 = (w.toInt % 100).toNat := by omega
  cases hop : Op.ofOpcode (w.toInt % 100).toNat with
  | none => simp only [selectOp, decodeWord_of_nonneg h, splitWord_opcode, hcode, hop]
  | some op =>
    have := Op.ofOpcode_eq_some_iff.1 hop
    exact absurd (by omega) (hnone op)

/-- Settles O3: the opcodes are 1 to 9 and 99, and each is one operation's. -/
theorem opcodeMapIsTotal : Obligations.OpcodeMapIsTotal := by
  refine fun w => ⟨selectOp_of_neg, fun h hcode => selectOp_of_no_opcode h fun op hop => ?_, fun h hcode => ?_⟩
  · have := Op.exists_opcode_eq_iff.1 ⟨op, rfl⟩
    omega
  · obtain ⟨op, hop⟩ := Op.exists_opcode_eq_iff (n := (w.toInt % 100).toNat).2 (by omega)
    have hmod : (op.opcode : Int) = w.toInt % 100 := by omega
    exact ⟨op, _, selectOp_ok_iff.2 ⟨h, hmod, rfl⟩, hmod⟩

/-! The instruction built and the cells it takes. -/

theorem Op.build_operands (op : Op) (d : Decoded) (raws : List I64) :
    (op.build d raws).operands = (List.range op.operandCount).map (operandAt d raws) := by
  cases op <;> rfl

theorem Op.build_raws {op : Op} (d : Decoded) {raws : List I64} (h : raws.length = op.operandCount) :
    (op.build d raws).operands.map Operand.raw = raws := by
  rw [Op.build_operands, ← h, List.map_map]
  refine List.ext_getElem (by simp) fun k _ hk => ?_
  simp [operandAt, hk]

theorem Instr.operands_length (i : Instr) : i.operands.length = i.op.operandCount := by
  cases i <;> rfl

/-- An instruction is built of its own operation and operands. -/
theorem Instr.build_eq_self {i : Instr} {d : Decoded} {raws : List I64}
    (h : ∀ k p, i.operands[k]? = some p → operandAt d raws k = p) : i.op.build d raws = i := by
  have h0 := h 0
  have h1 := h 1
  have h2 := h 2
  cases i <;> simp_all [Instr.operands, Instr.op, Op.build]

/-- What decoding answers: the selected operation, built of as many cells behind the word as it has operands. -/
theorem decode_cons_ok_iff {w : I64} {tail rest : List I64} {i : Instr} :
    decode (w :: tail) = .ok (i, rest) ↔ ∃ op d, selectOp w = .ok (op, d) ∧ op.operandCount ≤ tail.length ∧
      i = op.build d (tail.take op.operandCount) ∧ rest = tail.drop op.operandCount := by
  rw [decode]
  cases selectOp w with
  | error e => simp
  | ok x =>
    obtain ⟨op, d⟩ := x
    by_cases hlen : tail.length < op.operandCount
    · simp [hlen, not_le.2 hlen]
    · simp [hlen, not_lt.1 hlen, eq_comm]

/-- The instruction decoded is of the operation whose opcode is `w mod 100`. -/
theorem opcode_of_decode {w : I64} {tail rest : List I64} {i : Instr} (h : decode (w :: tail) = .ok (i, rest)) :
    (i.op.opcode : Int) = w.toInt % 100 := by
  obtain ⟨op, d, hsel, -, rfl, -⟩ := decode_cons_ok_iff.1 h
  obtain ⟨-, hcode, -⟩ := selectOp_ok_iff.1 hsel
  rwa [Op.build_op]

/-- Settles O4: the cells taken are the operation's, and the operation is its opcode's. -/
theorem lengthIsOfTheOpcodeAlone : Obligations.LengthIsOfTheOpcodeAlone := by
  refine ⟨fun cells i rest h => ?_, fun w w' tail tail' i i' rest rest' hmod h h' => ?_⟩
  · cases cells with
    | nil => cases h
    | cons w tail =>
      have hcode := opcode_of_decode h
      obtain ⟨op, d, -, hlen, rfl, rfl⟩ := decode_cons_ok_iff.1 h
      have hraws : (tail.take op.operandCount).length = op.operandCount := List.length_take_of_le hlen
      refine ⟨w, _, ?_, Op.build_raws d hraws, ?_, ?_, hcode⟩
      · rw [List.cons_append, List.take_append_drop]
      · rw [Op.build_length, hraws]
      · exact (Op.build_length op d _).trans_le (Nat.add_le_add_left (Op.operandCount_le op) 1)
  · have hop : i.op = i'.op := Op.opcode_injective (by
      have := opcode_of_decode h
      have := opcode_of_decode h'
      omega)
    rw [Instr.length, Instr.length, hop]

/-- Settles O7: the digits of weight `10^7` and above are not split off, and an operation looks at the slots of its operands. -/
theorem unusedDigitsAreIgnored : Obligations.UnusedDigitsAreIgnored := by
  refine ⟨fun w w' h h' hmod => ?_, fun op d d' raws hslot => ?_⟩
  · have hnat : w.toInt.toNat % 10 ^ 7 = w'.toInt.toNat % 10 ^ 7 := by omega
    rw [decodeWord_of_nonneg h, decodeWord_of_nonneg h', ← splitWord_mod, hnat, splitWord_mod]
  · cases op <;> simp_all [Op.build, operandAt, Op.operandCount]

/-! The canonical cells. -/

theorem Op.opcode_lt (op : Op) : op.opcode < 100 := by cases op <;> decide

theorem encodeWord_mod (i : Instr) : encodeWord i % 100 = i.op.opcode := by
  have := Op.opcode_lt i.op
  rw [encodeWord]
  omega

theorem encodeWord_div (i : Instr) : encodeWord i / 100 = modesValue i.operands := by
  have := Op.opcode_lt i.op
  rw [encodeWord]
  omega

theorem toInt_encodeWord (i : Instr) : (BitVec.ofNat 64 (encodeWord i)).toInt = encodeWord i := by
  have hlt : encodeWord i < 100000 :=
    Laws.EncodedLength.encodeWord_lt i ((Instr.operands_length i).trans_le (Op.operandCount_le i.op))
  have hnat : (BitVec.ofNat 64 (encodeWord i)).toNat = encodeWord i := by
    rw [BitVec.toNat_ofNat]
    omega
  rw [BitVec.toInt_eq_toNat_of_lt (by omega), hnat]

theorem Mode.ofDigit_digit (m : Mode) : Mode.ofDigit m.digit = m := by cases m <;> rfl

/-- The decimal digits of `modesValue` are the mode digits of the operands. -/
theorem digit_modesValue {ps : List Operand} {k : Nat} {p : Operand} (h : ps[k]? = some p) :
    digit k (modesValue ps) = p.mode.digit := by
  induction ps generalizing k with
  | nil => cases h
  | cons q qs ih =>
    have hq : q.mode.digit < 10 := by cases q.mode <;> decide
    cases k with
    | zero =>
      cases h
      rw [digit, modesValue]
      omega
    | succ k =>
      rw [← ih h, digit, digit, modesValue, Nat.pow_succ', ← Nat.div_div_eq_div_mul]
      congr 2
      omega

/-- The canonical word selects the instruction's operation, with each operand's mode in its slot (R62). -/
theorem selectOp_encodeWord (i : Instr) :
    selectOp (BitVec.ofNat 64 (encodeWord i)) = .ok (i.op, splitWord (encodeWord i)) := by
  rw [selectOp_ok_iff, toInt_encodeWord]
  have := encodeWord_mod i
  exact ⟨by omega, by omega, rfl⟩

theorem splitWord_encodeWord_slot {i : Instr} {k : Nat} {p : Operand} (h : i.operands[k]? = some p) :
    (splitWord (encodeWord i)).slot k = p.mode := by
  have hk : k < i.operands.length := (List.getElem?_eq_some_iff.1 h).1
  have hcount : i.operands.length ≤ 3 := (Instr.operands_length i).trans_le (Op.operandCount_le i.op)
  rw [splitWord_slot _ (by omega), encodeWord_div, digit_modesValue h, Mode.ofDigit_digit]

/-- Settles O5: the canonical word selects the operation and its modes, and the raw cells stand behind it. -/
theorem decodeInvertsEncode : Obligations.DecodeInvertsEncode := by
  intro i rest
  have hlen : (i.operands.map Operand.raw).length = i.op.operandCount := by rw [List.length_map, Instr.operands_length i]
  rw [encode, List.cons_append]
  refine decode_cons_ok_iff.2 ⟨i.op, _, selectOp_encodeWord i, ?_, ?_, (List.drop_left' hlen).symm⟩
  · rw [List.length_append, hlen]
    exact Nat.le_add_right _ _
  · rw [List.take_left' hlen]
    refine (Instr.build_eq_self fun k p hp => ?_).symm
    rw [operandAt, splitWord_encodeWord_slot hp, List.getD_eq_getElem?_getD, List.getElem?_map, hp]
    rfl

/-- Settles O6: decoding gives back which instruction the cells begin with, and what is behind it. -/
theorem encodingIsPrefixFree : Obligations.EncodingIsPrefixFree := by
  intro i j rest rest' h
  have hdec := (decodeInvertsEncode i rest).symm.trans ((congrArg decode h).trans (decodeInvertsEncode j rest'))
  rwa [Except.ok.injEq, Prod.mk.injEq] at hdec

/-- Settles O1: each run of cells is decoded by evaluation. -/
theorem wordsDecodeAsTheSpecWritesThem : Obligations.WordsDecodeAsTheSpecWritesThem :=
  ⟨rfl, rfl, rfl, rfl, rfl, rfl, rfl, rfl, rfl, rfl, rfl, rfl, rfl⟩

end Sys2Proof.Machine

/-! SUPPORT. What the parser of program text answers: the value of digits, of a token, and the tokens of a text. Then the
obligations of program text (30_encoding.md R63, 70_reset_and_hazards.md R186). -/

namespace Sys2Proof.Machine

/-! Digits. -/

theorem isDigit_iff {ch : Char} : ch.isDigit = true ↔ '0'.toNat ≤ ch.toNat ∧ ch.toNat ≤ '9'.toNat := by
  rw [Char.isDigit, Bool.and_eq_true, decide_eq_true_iff, decide_eq_true_iff]
  exact Iff.rfl

theorem digitValue_eq_ite (ch : Char) : digitValue ch = if ch.isDigit then some (ch.toNat - '0'.toNat) else none :=
  if_congr isDigit_iff.symm rfl rfl

/-- Digits have the value the library reads them as, and a text with any other character has none. -/
theorem digitsValue_eq_some_iff {text : List Char} {acc n : Nat} :
    digitsValue acc text = some n ↔ (∀ ch ∈ text, ch.isDigit) ∧ Nat.ofDigitChars 10 text acc = n := by
  induction text generalizing acc with
  | nil => simp [digitsValue]
  | cons ch rest ih =>
    rw [digitsValue, digitValue_eq_ite, List.forall_mem_cons, Nat.ofDigitChars_cons]
    by_cases hd : ch.isDigit
    · simp [hd, ih]
    · simp [hd]

theorem naturalValue_eq_some_iff {text : List Char} {n : Nat} :
    naturalValue text = some n ↔ text ≠ [] ∧ (∀ ch ∈ text, ch.isDigit) ∧ Nat.ofDigitChars 10 text 0 = n := by
  cases text with
  | nil => simp [naturalValue]
  | cons ch rest => simp only [naturalValue, digitsValue_eq_some_iff, ne_eq, reduceCtorEq, not_false_eq_true, true_and]

theorem naturalValue_toDigits (n : Nat) : naturalValue (Nat.toDigits 10 n) = some n :=
  naturalValue_eq_some_iff.2 ⟨Nat.toDigits_ne_nil,
    fun _ => Nat.isDigit_of_mem_toDigits (by decide) (by decide), Nat.ofDigitChars_ten_toDigits⟩

/-! A token. -/

theorem tokenValue_of_head_ne_minus {ch : Char} {rest : List Char} {n : Nat} (hch : ch ≠ '-')
    (h : naturalValue (ch :: rest) = some n) : tokenValue (ch :: rest) = toI64 n := by
  unfold tokenValue
  split
  · rename_i heq; cases heq; exact absurd rfl hch
  · rw [h]

theorem tokenValue_of_natural {digits : List Char} {n : Nat} (h : naturalValue digits = some n) :
    tokenValue digits = toI64 n := by
  obtain ⟨hne, hdigits, -⟩ := naturalValue_eq_some_iff.1 h
  cases digits with
  | nil => exact absurd rfl hne
  | cons ch rest =>
    have hch : ch ≠ '-' := by
      rintro rfl
      exact absurd (hdigits '-' List.mem_cons_self) (by decide)
    exact tokenValue_of_head_ne_minus hch h

theorem tokenValue_minus {digits : List Char} {n : Nat} (h : naturalValue digits = some n) :
    tokenValue ('-' :: digits) = toI64 (-(n : Int)) := by
  simp only [tokenValue, h]

/-- A token that has a value is digits, or a minus sign and digits (R186). -/
theorem exists_natural_of_tokenValue {token : List Char} {v : I64} (h : tokenValue token = some v) :
    ∃ digits n, naturalValue digits = some n ∧ (token = digits ∨ token = '-' :: digits) := by
  unfold tokenValue at h
  split at h
  · rename_i rest
    cases hn : naturalValue rest with
    | none => rw [hn] at h; cases h
    | some n => exact ⟨rest, n, hn, .inr rfl⟩
  · cases hn : naturalValue token with
    | none => rw [hn] at h; cases h
    | some n => exact ⟨token, n, hn, .inl rfl⟩

theorem tokenValue_decimal (v : Int) : tokenValue (decimal v) = toI64 v := by
  have hnat := naturalValue_toDigits v.natAbs
  unfold decimal
  split
  · rw [tokenValue_minus hnat]
    congr 1
    omega
  · rw [tokenValue_of_natural hnat]
    congr 1
    omega

theorem ne_comma_of_mem_decimal {v : Int} {ch : Char} (h : ch ∈ decimal v) : ch ≠ ',' := by
  have hdigit : ch = '-' ∨ ch ∈ Nat.toDigits 10 v.natAbs := by
    unfold decimal at h
    split at h
    · exact List.mem_cons.1 h
    · exact .inr h
  rintro rfl
  obtain hminus | hmem := hdigit
  · exact absurd hminus (by decide)
  · exact absurd (Nat.isDigit_of_mem_toDigits (by decide) (by decide) hmem) (by decide)

/-! The tokens of a text. -/

theorem tokens_ne_nil (text : List Char) : tokens text ≠ [] := by
  unfold tokens
  split
  · exact List.cons_ne_nil _ _
  · split
    · exact List.cons_ne_nil _ _
    · split <;> exact List.cons_ne_nil _ _

theorem tokens_cons_of_ne_comma {ch : Char} (h : ch ≠ ',') {rest t : List Char} {ts : List (List Char)}
    (hrest : tokens rest = t :: ts) : tokens (ch :: rest) = (ch :: t) :: ts := by
  simp only [tokens, h, if_false, hrest]

/-- A comma parts the tokens before it from those after it. -/
theorem tokens_append_comma (x y : List Char) : tokens (x ++ ',' :: y) = tokens x ++ tokens y := by
  induction x with
  | nil => simp [tokens]
  | cons ch rest ih =>
    by_cases hch : ch = ','
    · simp [tokens, hch, ih]
    · obtain ⟨t, ts, hts⟩ := List.exists_cons_of_ne_nil (tokens_ne_nil rest)
      rw [hts, List.cons_append] at ih
      rw [List.cons_append, tokens_cons_of_ne_comma hch ih, tokens_cons_of_ne_comma hch hts, List.cons_append]

theorem tokens_of_no_comma {token : List Char} (h : ∀ ch ∈ token, ch ≠ ',') : tokens token = [token] := by
  induction token with
  | nil => rfl
  | cons ch rest ih =>
    obtain ⟨hch, hrest⟩ := List.forall_mem_cons.1 h
    exact tokens_cons_of_ne_comma hch (ih hrest)

/-- What stands between two commas, or a comma and an end of the text, is one of its tokens. -/
theorem mem_tokens_of_between {before token after : List Char} (htoken : ∀ ch ∈ token, ch ≠ ',')
    (hbefore : before = [] ∨ ∃ x, before = x ++ [',']) (hafter : after = [] ∨ ∃ x, after = ',' :: x) :
    token ∈ tokens (before ++ token ++ after) := by
  have hleft : token ∈ tokens (token ++ after) := by
    obtain rfl | ⟨y, rfl⟩ := hafter
    · rw [List.append_nil, tokens_of_no_comma htoken]
      exact List.mem_singleton_self token
    · rw [tokens_append_comma, tokens_of_no_comma htoken]
      exact List.mem_append_left _ (List.mem_singleton_self token)
  obtain rfl | ⟨x, rfl⟩ := hbefore
  · exact hleft
  · rw [List.append_assoc, List.append_assoc, List.singleton_append, tokens_append_comma]
    exact List.mem_append_right _ hleft

/-- One token without a value and the whole text has none: "no partial load". -/
theorem tokenValues_eq_none {ts : List (List Char)} {t : List Char} (hmem : t ∈ ts) (ht : tokenValue t = none) :
    tokenValues ts = none := by
  induction ts with
  | nil => cases hmem
  | cons u us ih =>
    obtain rfl | hus := List.mem_cons.1 hmem
    · simp only [tokenValues, ht]
    · rw [tokenValues, ih hus]
      cases tokenValue u <;> rfl

/-- The decimals of cells have the cells as their values. -/
theorem tokenValues_map_decimal (p : List I64) : tokenValues (p.map fun v => decimal v.toInt) = some p := by
  induction p with
  | nil => rfl
  | cons v vs ih => simp only [List.map_cons, tokenValues, tokenValue_decimal, toI64_toInt, ih]

/-- The tokens of a Program's text are the decimals of its cells. -/
theorem tokens_programText {p : List I64} (hp : p ≠ []) : tokens (programText p) = p.map fun v => decimal v.toInt := by
  have hdecimal : ∀ v : I64, tokens (decimal v.toInt) = [decimal v.toInt] := fun v =>
    tokens_of_no_comma fun _ => ne_comma_of_mem_decimal
  induction p using programText.induct with
  | case1 => exact absurd rfl hp
  | case2 v => exact hdecimal v
  | case3 v w vs ih =>
    rw [programText, tokens_append_comma, hdecimal, ih (List.cons_ne_nil w vs)]
    rfl

/-- Settles O57: the tokens of the text are the decimals of the cells, and each has its cell's value. -/
theorem programTextRoundTrip : Obligations.ProgramTextRoundTrip := by
  intro p hp
  rw [parseProgram, tokens_programText hp, tokenValues_map_decimal]

/-- A token has no value when a character other than a leading minus sign is no digit. -/
theorem tokenValue_of_not_digit {token : List Char} {ch : Char} (hmem : ch ∈ token) (hdigit : ch.isDigit = false)
    (hlead : ∀ rest, token = '-' :: rest → ch ∈ rest) : tokenValue token = none := by
  by_contra hsome
  obtain ⟨v, hv⟩ := Option.ne_none_iff_exists'.1 hsome
  obtain ⟨digits, n, hn, htoken⟩ := exists_natural_of_tokenValue hv
  obtain ⟨-, hdigits, -⟩ := naturalValue_eq_some_iff.1 hn
  have hin : ch ∈ digits := by
    obtain rfl | h := htoken
    · exact hmem
    · exact hlead digits h
  exact Bool.false_ne_true (hdigit.symm.trans (hdigits ch hin))

/-- Settles O58: the malformed part is a token of the text, and has no value. -/
theorem malformedTextIsRefused : Obligations.MalformedTextIsRefused := by
  intro before token after hcomma hbefore hafter hmalformed
  refine tokenValues_eq_none (mem_tokens_of_between hcomma hbefore hafter) ?_
  obtain rfl | rfl | ⟨x, y, hx, rfl⟩ | ⟨ch, hmem, hminus, hdigit⟩ | ⟨v, hv, rfl⟩ |
    ⟨digits, n, hn, ⟨hbig, rfl⟩ | ⟨hbig, rfl⟩⟩ := hmalformed
  · rfl
  · rfl
  · refine tokenValue_of_not_digit (ch := '-') (by simp) (by decide) fun rest hrest => ?_
    obtain ⟨c, cs, rfl⟩ := List.exists_cons_of_ne_nil hx
    obtain ⟨-, rfl⟩ := List.cons_eq_cons.1 hrest
    exact List.mem_append_right cs List.mem_cons_self
  · refine tokenValue_of_not_digit hmem (Bool.eq_false_iff.2 fun h => hdigit (isDigit_iff.1 h)) fun rest hrest => ?_
    rw [hrest] at hmem
    exact (List.mem_cons.1 hmem).resolve_left hminus
  · rw [tokenValue_decimal, toI64_none]
    exact hv
  · rw [tokenValue_of_natural hn, toI64_none]
    omega
  · rw [tokenValue_minus hn, toI64_none]
    omega

end Sys2Proof.Machine

/-! SUPPORT. What fetching answers, case by case; what an instruction, a core's step and the host's step can stop with; and when
the platform has come to an end. Then the obligations of the execution loop (40_execution_loop.md). -/

namespace Sys2Proof.Machine

variable {s t u : State} {c : CoreState}

/-! Fetching. -/

/-- The cells behind the word that a decoder of the four cells at `pc` takes are those a fetch reads. -/
theorem CoreState.take_cellsAtPc_tail (c : CoreState) {n : Nat} (hn : n ≤ Config.maxOperands) :
    c.cellsAtPc.tail.take n = (List.range n).map fun k => c.mem.read (c.pc + 1 + k) := by
  unfold Config.maxOperands at hn
  interval_cases n <;> rfl

/-- The instruction a fetch answers stands at `pc` (40_execution_loop.md R70). -/
theorem CoreState.standsAtPc_of_fetch {i : Instr} (h : c.fetch = .ok i) : c.standsAtPc i := by
  refine ⟨CoreState.fetch_length h, ?_⟩
  obtain ⟨-, op, d, hsel, -, rfl⟩ := CoreState.fetch_ok.1 h
  rw [← c.take_cellsAtPc_tail (Op.operandCount_le op)]
  exact ⟨_, decode_cons_ok_iff.2 ⟨op, d, hsel, Op.operandCount_le op, rfl, rfl⟩⟩

/-- Settles O8: the decoder takes as many of the cells at `pc` as the selected operation has operands, and so does the fetch. -/
theorem fetchIsDecodeOfTheCellsAtPc : Obligations.FetchIsDecodeOfTheCellsAtPc :=
  fun _ _ => ⟨CoreState.standsAtPc_of_fetch, CoreState.fetch_of_standsAtPc⟩

theorem CoreState.memRead_pc (h : c.pc < c.params.memCap) : c.memRead c.pc .fetch = .ok (c.mem.read c.pc) :=
  CoreState.memRead_ok.2 ⟨by omega, by omega, rfl⟩

theorem CoreState.fetch_of_memCap_le (h : c.params.memCap ≤ c.pc) :
    c.fetch = .error (.addressOutOfRange c.pc .fetch) := by
  have hread : c.memRead c.pc .fetch = .error (.addressOutOfRange c.pc .fetch) :=
    CoreState.memRead_error.2 ⟨by omega, rfl⟩
  simp only [CoreState.fetch, hread]

theorem CoreState.fetch_of_selectOp_error {x : DecodeError} (h : c.pc < c.params.memCap)
    (hsel : selectOp (c.mem.read c.pc) = .error x) :
    c.fetch = .error (.illegalInstruction c.pc (c.mem.read c.pc)) := by
  simp only [CoreState.fetch, CoreState.memRead_pc h, hsel]

theorem CoreState.fetch_of_operands_error {op : Op} {d : Decoded} {e : Cause} (h : c.pc < c.params.memCap)
    (hsel : selectOp (c.mem.read c.pc) = .ok (op, d))
    (hread : c.memReadCells .operand (c.pc + 1) op.operandCount = .error e) : c.fetch = .error e := by
  simp only [CoreState.fetch, CoreState.memRead_pc h, hsel, hread]

/-- The first cell that does not exist is the one reported: the converse of `CoreState.memReadCells_error`. -/
theorem CoreState.memReadCells_of_first_missing {k : AccessKind} {a n i : Nat} (hi : i < n)
    (hcap : c.params.memCap ≤ a + i) (hlow : ∀ j < i, a + j < c.params.memCap) :
    c.memReadCells k a n = .error (.addressOutOfRange ((a + i : Nat) : Int) k) := by
  cases hr : c.memReadCells k a n with
  | ok vs =>
    obtain ⟨-, hle⟩ := CoreState.memReadCells_ok hr
    omega
  | error e =>
    obtain ⟨i', -, rfl, hcap', hlow'⟩ := CoreState.memReadCells_error hr
    have hle : i ≤ i' := not_lt.1 fun hlt => (hlow i' hlt).not_ge hcap'
    have hge : i' ≤ i := not_lt.1 fun hlt => (hlow' i hlt).not_ge hcap
    rw [le_antisymm hle hge]

/-- Settles O9: the word first, then its operand cells from the lowest on. -/
theorem fetchFaultsInOrder : Obligations.FetchFaultsInOrder := by
  refine fun c => ⟨CoreState.fetch_of_memCap_le, fun hpc x hsel => CoreState.fetch_of_selectOp_error hpc hsel,
    fun hpc op d hsel => ⟨fun i hi hcap hlow => ?_, fun hall => ?_⟩⟩
  · exact CoreState.fetch_of_operands_error hpc hsel (CoreState.memReadCells_of_first_missing hi hcap hlow)
  · have hle : c.pc + 1 + op.operandCount ≤ c.params.memCap := by
      cases hn : op.operandCount with
      | zero => exact hpc
      | succ n => exact hall n (by omega)
    exact CoreState.fetch_ok.2 ⟨hpc, op, d, hsel, hle, rfl⟩

/-! Operands. -/

/-- Settles O10: a source outside Immediate mode is a read of memory at its effective address. -/
theorem sourceOperandIsRead : Obligations.SourceOperandIsRead :=
  fun _ _ => ⟨rfl, fun ⟨h0, h1⟩ => CoreState.memRead_ok.2 ⟨h0, h1, rfl⟩, fun h => CoreState.memRead_error.2 ⟨h, rfl⟩,
    fun ⟨h0, h1⟩ => CoreState.memRead_ok.2 ⟨h0, h1, rfl⟩, fun h => CoreState.memRead_error.2 ⟨h, rfl⟩⟩

/-- Settles O11: a destination outside Immediate mode is its effective address, checked. -/
theorem destinationOperandNamesACell : Obligations.DestinationOperandNamesACell :=
  fun _ _ => ⟨rfl, fun ⟨h0, h1⟩ => CoreState.checkAddr_ok.2 ⟨h0, h1, rfl⟩, fun h => CoreState.checkAddr_error.2 ⟨h, rfl⟩,
    fun ⟨h0, h1⟩ => CoreState.checkAddr_ok.2 ⟨h0, h1, rfl⟩, fun h => CoreState.checkAddr_error.2 ⟨h, rfl⟩⟩

/-! The step of the core whose turn it is. -/

theorem step_of_turn {a : Agent} {rest : List Agent} (h : s.turns = a :: rest) :
    step s = move a { s with turns := rest } := by
  simp only [step, platformStep, h]

theorem step_of_core_turn {j : Nat} {rest : List Agent} (h : s.turns = .core j :: rest)
    (hu : { s with turns := rest }.select j = some u) : step s = coreStep u :=
  (step_of_turn h).trans (move_core_of_select hu)

/-- Settles O12: the step is the core's own, by its turn or because it is alone, and fetches what stands at `pc`. -/
theorem stepRunsTheDecodedInstruction : Obligations.StepRunsTheDecodedInstruction := by
  refine ⟨fun s u j rest i hturns hu hrun hi => ?_, fun s t i hturns hbefore hafter hscript hrun hi hexec => ?_⟩
  · exact (step_of_core_turn hturns hu).trans (coreStep_of_fetch hrun (CoreState.fetch_of_standsAtPc hi))
  · have halone : s.IsAlone := ⟨hbefore, hafter, hscript, hturns⟩
    exact halone.step_eq ((coreStep_of_fetch hrun (CoreState.fetch_of_standsAtPc hi)).trans hexec)

theorem coreStep_of_fetch_error {e : Cause} (hrun : s.core.status = .running) (he : s.core.fetch = .error e) :
    coreStep s = .next (s.raise e) := by
  simp only [coreStep, hrun, if_true, he]

/-- A word that is negative, or whose `w mod 100` is 0 or 10 to 98, selects no instruction (30_encoding.md R66). -/
theorem exists_selectOp_error {w : I64}
    (h : w.toInt < 0 ∨ w.toInt % 100 = 0 ∨ 10 ≤ w.toInt % 100 ∧ w.toInt % 100 ≤ 98) : ∃ x, selectOp w = .error x := by
  cases hsel : selectOp w with
  | error x => exact ⟨x, rfl⟩
  | ok x =>
    obtain ⟨hnonneg, hcode, -⟩ := selectOp_ok_iff.1 hsel
    have := Op.exists_opcode_eq_iff.1 ⟨x.1, rfl⟩
    omega

/-- Settles O13: the fetch faults as R71 says, and the step of a core whose fetch faults raises that. -/
theorem stepTakesTheFetchFault : Obligations.StepTakesTheFetchFault := by
  intro s u e hrun hfault
  have hfetch : u.core.fetch = .error e := by
    obtain ⟨hpc, rfl⟩ | ⟨hpc, rfl, hword⟩ := hfault
    · exact CoreState.fetch_of_memCap_le hpc
    · obtain ⟨x, hsel⟩ := exists_selectOp_error hword
      exact CoreState.fetch_of_selectOp_error hpc hsel
  have hstep := coreStep_of_fetch_error hrun hfetch
  refine ⟨?_, fun j rest hturns hu => (step_of_core_turn hturns hu).trans hstep⟩
  rintro rfl hturns hbefore hafter hscript
  exact State.IsAlone.step_eq ⟨hbefore, hafter, hscript, hturns⟩ hstep

/-! What an instruction can stop with. -/

/-- The core holds an end of a channel that does not exist; no wired platform has such a core (log 26). -/
def State.EndMissing (s : State) : Prop :=
  ∃ k, (s.core.inCh = some k ∨ s.core.outCh = some k) ∧ s.chans[k]? = none

theorem State.wired.not_endMissing (h : s.wired) : ¬s.EndMissing := by
  obtain ⟨-, -, hin, hout, -⟩ := h
  have hcore : s.core ∈ s.cores := List.mem_of_getElem? s.cores_coreNumber
  rintro ⟨k, hk | hk, hnone⟩
  · exact (List.getElem?_eq_none_iff.1 hnone).not_gt (hin s.core hcore k hk)
  · exact (List.getElem?_eq_none_iff.1 hnone).not_gt (hout s.core hcore k hk)

/-- The outcomes of an instruction: it answers a next state, blocks, or finds its channel missing. -/
inductive ExecOutcome (s : State) : Result → Prop
  | next (t : State) : ExecOutcome s (.next t)
  | blocked : ExecOutcome s (.fault .blocked)
  | noSuchChannel (h : s.EndMissing) : ExecOutcome s (.fault .noSuchChannel)

theorem ExecOutcome.of_exists_next {r : Result} (h : ∃ t, r = .next t) : ExecOutcome s r := by
  obtain ⟨t, rfl⟩ := h
  exact .next t

theorem execInput_outcome (dst : Operand) (s : State) : ExecOutcome s (execInput dst s) := by
  unfold execInput
  split
  · exact .next _
  · unfold inputTo
    split
    · exact .of_exists_next (exists_inputMissing_next .noEndpoint s)
    · rename_i k hk
      split
      · rename_i hnone; exact .noSuchChannel ⟨k, .inl hk, hnone⟩
      · split
        · exact .next _
        · exact .of_exists_next (exists_inputMissing_next .closed s)
        · exact .blocked

theorem execOutput_outcome (p0 : Operand) (s : State) : ExecOutcome s (execOutput p0 s) := by
  unfold execOutput
  split
  · exact .next _
  · cases hk : s.core.outCh with
    | none => simp only [produceOut, hk]; exact .next _
    | some k =>
      cases hch : s.chans[k]? with
      | none => simp only [produceOut, hk, hch]; exact .noSuchChannel ⟨k, .inr hk, hch⟩
      | some ch => simp only [produceOut, hk, hch]; exact .next _

/-- EVERYTHING an instruction can answer. Input alone blocks, and Input and Output alone look for a channel. -/
theorem exec_outcome (i : Instr) (s : State) : ExecOutcome s (exec i s) := by
  cases i with
  | input dst => exact execInput_outcome dst s
  | output p0 => exact execOutput_outcome p0 s
  | halt => exact .next _
  | add | mul | jumpIfTrue | jumpIfFalse | lessThan | equals | adjustRelativeBase =>
    exact .of_exists_next (exists_finish_next s _)

/-- On a wired platform no channel is missing. -/
theorem ExecOutcome.next_or_blocked {r : Result} (h : ExecOutcome s r) (hwired : s.wired) :
    (∃ t, r = .next t) ∨ r = .fault .blocked := by
  cases h with
  | next t => exact .inl ⟨t, rfl⟩
  | blocked => exact .inr rfl
  | noSuchChannel hmissing => exact absurd hmissing hwired.not_endMissing

/-- Settles O45: of the outcomes of an instruction a missing channel alone is left out. -/
theorem instructionsOnlyStopBlocked : Obligations.InstructionsOnlyStopBlocked :=
  fun i s hwired => (exec_outcome i s).next_or_blocked hwired

/-! What an agent's move can stop with. -/

/-- The stops that are ends of the platform and no agent's own (log 6). -/
def Fault.IsEnd : Fault → Prop
  | .finished | .failed | .deadlock => True
  | .blocked | .stopped | .hostIdle | .waiting | .noSuchCore | .noSuchChannel => False

theorem coreStep_of_stopped (h : s.core.status ≠ .running) : coreStep s = .fault .stopped := if_neg h

/-- Everything a core's step can stop with (10_state.md R14, 42_io.md R104). -/
theorem coreStep_fault {f : Fault} (h : coreStep s = .fault f) :
    s.core.status ≠ .running ∧ f = .stopped ∨ ∃ i, s.core.fetch = .ok i ∧ exec i s = .fault f := by
  by_cases hrun : s.core.status = .running
  · cases hfetch : s.core.fetch with
    | error e => cases (coreStep_of_fetch_error hrun hfetch).symm.trans h
    | ok i => exact .inr ⟨i, rfl, (coreStep_of_fetch hrun hfetch).symm.trans h⟩
  · cases (coreStep_of_stopped hrun).symm.trans h
    exact .inl ⟨hrun, rfl⟩

theorem hostInspect_fault {i : Nat} {read : CoreState → Result} {f : Fault} (h : hostInspect i read s = .fault f) :
    ∃ c, read c = .fault f := by
  unfold hostInspect at h
  split at h
  · cases h
  · split at h
    · exact ⟨_, h⟩
    · cases h

/-- Everything a host action can stop with: `run()` waits, and a drain blocks (40_execution_loop.md R78, 42_io.md R102). -/
theorem hostAct_fault {a : HostAction} {f : Fault} (h : hostAct a s = .fault f) : f = .waiting ∨ f = .blocked := by
  cases a with
  | run i =>
    simp only [hostAct, hostRun] at h
    split at h
    · cases h
    · split at h <;> cases h
      exact .inl rfl
  | drain k =>
    simp only [hostAct, hostDrain] at h
    split at h
    · cases h
    · split at h
      · split at h <;> cases h
        exact .inr rfl
      · cases h
  | load text =>
    simp only [hostAct, hostLoad] at h
    split at h <;> cases h
  | newChannel => cases h
  | construct | produce | closeProducer | dropConsumer =>
    simp only [hostAct, hostConstruct, hostProduce, hostCloseProducer, hostDropConsumer] at h
    split at h
    · cases h
    · split_ifs at h
  | readCell i a =>
    obtain ⟨c, hc⟩ := hostInspect_fault h
    split_ifs at hc
  | readLast i =>
    obtain ⟨c, hc⟩ := hostInspect_fault h
    split at hc <;> cases hc
  | readPc i | readRb i | readStatus i =>
    obtain ⟨c, hc⟩ := hostInspect_fault h
    cases hc

/-- No agent's move stops with an end of the platform. -/
theorem not_isEnd_of_move {a : Agent} {f : Fault} (h : move a s = .fault f) : ¬f.IsEnd := by
  cases a with
  | host =>
    simp only [move, hostStep] at h
    split at h
    · cases h; exact id
    · obtain rfl | rfl := hostAct_fault h <;> exact id
  | core j =>
    simp only [move] at h
    split at h
    · cases h; exact id
    · rename_i u _
      obtain ⟨-, rfl⟩ | ⟨i, -, hexec⟩ := coreStep_fault h
      · exact id
      · have hout := exec_outcome i u
        rw [hexec] at hout
        cases hout <;> exact id

/-! The ends of the platform. -/

theorem State.mem_agents {a : Agent} : a ∈ s.agents ↔ (∃ j < s.cores.length, a = .core j) ∨ a = .host := by
  simp [State.agents, eq_comm]

theorem State.ready_eq_nil_iff : s.ready = [] ↔ ∀ a ∈ s.agents, ∃ f, move a s = .fault f := by
  have hstep : ∀ a, hasStep s a = false ↔ ∃ f, move a s = .fault f := fun a => by
    cases hm : move a s <;> simp [hasStep, hm]
  simp only [State.ready, List.filter_eq_nil_iff, Bool.not_eq_true, hstep]

/-- The platform ends where no agent has a step, and nowhere else (40_execution_loop.md R79, 60_exceptions.md R175). -/
theorem step_eq_end_iff {f : Fault} (hturns : s.turns = []) (hf : f.IsEnd) :
    step s = .fault f ↔ s.ready = [] ∧ s.endReason = f := by
  simp only [step, platformStep, hturns]
  split
  · rename_i hready; simp [hready]
  all_goals
    rename_i hready
    simp only [hready, reduceCtorEq, false_and, iff_false]
    exact fun h => not_isEnd_of_move h hf

theorem State.endReason_eq_finished_iff : s.endReason = .finished ↔ s.success := by
  unfold State.endReason State.success
  split_ifs with hrunning hhalted
  · obtain ⟨c, hc, hrun⟩ := List.any_eq_true.1 hrunning
    refine iff_of_false id fun hall => ?_
    rw [hall c hc] at hrun
    cases hrun
  · simpa using hhalted
  · simpa using hhalted

theorem State.endReason_eq_deadlock_iff : s.endReason = .deadlock ↔ ∃ c ∈ s.cores, c.status = .running := by
  unfold State.endReason
  split_ifs with hrunning hhalted <;> simpa using hrunning

theorem move_core_of_stopped {j : Nat} (hget : s.cores[j]? = some c) (hstop : c.status ≠ .running) :
    move (.core j) s = .fault .stopped := by
  obtain ⟨u, hu, rfl⟩ := State.select_of_getElem? hget
  exact (move_core_of_select hu).trans (coreStep_of_stopped hstop)

/-- Where every core is Halted and the host has nothing to do, no agent has a step. -/
theorem State.ready_eq_nil_of_success (hscript : s.host.script = []) (h : s.success) : s.ready = [] := by
  refine State.ready_eq_nil_iff.2 fun a ha => ?_
  obtain ⟨j, hj, rfl⟩ | rfl := State.mem_agents.1 ha
  · have hhalted : s.cores[j].status = .halted := h _ (List.getElem_mem hj)
    exact ⟨_, move_core_of_stopped (List.getElem?_eq_getElem hj) (by simp [hhalted])⟩
  · exact ⟨.hostIdle, by simp only [move, hostStep, hscript]⟩

/-- Settles O46: the reason of the end is the cores' alone, and Halted cores have no step. -/
theorem finishedExactlyWhenAllHalted : Obligations.FinishedExactlyWhenAllHalted := by
  intro s hturns hscript
  rw [step_eq_end_iff (f := .finished) hturns trivial, State.endReason_eq_finished_iff, and_iff_right_iff_imp]
  exact State.ready_eq_nil_of_success hscript

/-- On a wired platform a Running core that has no step is blocked (42_io.md R104). -/
theorem move_core_blocked {j : Nat} {f : Fault} (hwired : s.wired) (hget : s.cores[j]? = some c)
    (hrun : c.status = .running) (h : move (.core j) s = .fault f) : f = .blocked := by
  obtain ⟨u, hu, rfl⟩ := State.select_of_getElem? hget
  obtain ⟨hcores, -, -, hchans, -⟩ := State.select_spec hu
  have huwired : u.wired := State.wired_of_ends_eq (by rw [hcores]) (by rw [hchans]) hwired
  obtain ⟨hstop, -⟩ | ⟨i, -, hexec⟩ := coreStep_fault ((move_core_of_select hu).symm.trans h)
  · exact absurd hrun hstop
  · obtain ⟨t, ht⟩ | hblocked := (exec_outcome i u).next_or_blocked huwired
    · cases ht.symm.trans hexec
    · cases hblocked.symm.trans hexec; rfl

/-- Settles O47: where the platform is deadlocked no agent has a step, and the reason of the end is a Running core. -/
theorem deadlockMeansEveryRunningCoreIsBlocked : Obligations.DeadlockMeansEveryRunningCoreIsBlocked := by
  intro s hwired hturns hstep
  obtain ⟨hready, hreason⟩ := (step_eq_end_iff (f := .deadlock) hturns trivial).1 hstep
  refine ⟨State.endReason_eq_deadlock_iff.1 hreason, fun j c hget hrun => ?_⟩
  have hagent : .core j ∈ s.agents := State.mem_agents.2 (.inl ⟨j, (List.getElem?_eq_some_iff.1 hget).1, rfl⟩)
  obtain ⟨f, hf⟩ := State.ready_eq_nil_iff.1 hready _ hagent
  rw [hf, move_core_blocked hwired hget hrun hf]

end Sys2Proof.Machine

/-! SUPPORT. What Add, Multiply, LessThan and Equals answer: the word that selects them, the result brought back to `I64`, the
faults in their order, the one cell they change. Then the obligations of arithmetic (41_arithmetic.md). -/

namespace Sys2Proof.Machine

variable {s t : State} {p0 p1 dst : Operand}

/-! The one cell that Add, Multiply, LessThan and Equals change. -/

/-- A write changes no other cell, in any memory, canonical or not. -/
theorem Memory.read_write_of_ne (m : Memory) (v : I64) {a b : Nat} (h : b ≠ a) : (m.write a v).read b = m.read b := by
  have hcons : ∀ m' : Memory, (Memory.cons a v m').read b = m'.read b := fun m' => by
    rw [Memory.read_cons a v m' b fun hb => absurd hb h, if_neg h]
  induction m with
  | nil => exact hcons []
  | cons cell rest ih =>
    obtain ⟨k, x⟩ := cell
    unfold Memory.write
    split_ifs with hlt hk
    · exact hcons _
    · rw [hcons, Memory.read, if_neg (hk ▸ h)]
    · rw [Memory.read, Memory.read, ih]

/-- What one of the four can do: raise a fault, or store to the cell its destination names. -/
def StoresOrRaises (dst : Operand) (s t : State) : Prop :=
  (∃ e, t = s.raise e) ∨ ∃ ea v, s.core.writeAddr dst = .ok ea ∧ t = s.withCore ((s.core.store ea v).advance 4)

theorem finish_storesOrRaises {r : Except Cause CoreState} (h : finish s r = .next t) (hr : ∀ c', r = .ok c' →
    ∃ ea v, s.core.writeAddr dst = .ok ea ∧ c' = (s.core.store ea v).advance 4) : StoresOrRaises dst s t := by
  rcases finish_next.1 h with ⟨e, -, rfl⟩ | ⟨c', hc', rfl⟩
  · exact .inl ⟨e, rfl⟩
  · obtain ⟨ea, v, hea, rfl⟩ := hr c' hc'
    exact .inr ⟨ea, v, hea, rfl⟩

theorem arith_storesOrRaises {f : Int → Int → Int} (h : finish s (s.core.arith f p0 p1 dst) = .next t) :
    StoresOrRaises dst s t :=
  finish_storesOrRaises h fun _ hc' =>
    let ⟨_, _, v, ea, _, _, _, hea, hstore⟩ := CoreState.arith_ok.1 hc'
    ⟨ea, v, hea, hstore⟩

theorem compare_storesOrRaises {f : I64 → I64 → Bool} (h : finish s (s.core.compare f p0 p1 dst) = .next t) :
    StoresOrRaises dst s t :=
  finish_storesOrRaises h fun _ hc' =>
    let ⟨_, _, ea, _, _, hea, hstore⟩ := CoreState.compare_ok.1 hc'
    ⟨ea, _, hea, hstore⟩

/-- Settles O32: a fault changes the status alone, and a completed store one cell and `pc`. -/
theorem threeOperandFrame : Obligations.ThreeOperandFrame := by
  intro i p0 p1 dst s t hi h
  have hcases : StoresOrRaises dst s t := by
    rcases hi with rfl | rfl | rfl | rfl
    · exact arith_storesOrRaises h
    · exact arith_storesOrRaises h
    · exact compare_storesOrRaises h
    · exact compare_storesOrRaises h
  rcases hcases with ⟨e, rfl⟩ | ⟨ea, v, hea, rfl⟩
  · exact ⟨⟨rfl, rfl, rfl, rfl, rfl, rfl⟩, rfl, rfl, rfl, rfl, rfl, fun _ _ _ _ => rfl, fun _ _ => rfl,
      .inr ⟨e, rfl, rfl, rfl⟩⟩
  · refine ⟨⟨rfl, rfl, rfl, rfl, rfl, rfl⟩, rfl, rfl, rfl, rfl, rfl, fun ea' hea' a ha => ?_, fun e he => ?_, .inl rfl⟩
    · cases hea.symm.trans hea'
      exact Memory.read_write_of_ne s.core.mem v ha
    · cases hea.symm.trans he

/-! The word of an instruction. -/

/-- The words that select an operation: not negative, and `w mod 100` its opcode (30_encoding.md R54, R66). -/
theorem exists_selectOp_ok_iff {w : I64} {op : Op} :
    (∃ d, selectOp w = .ok (op, d)) ↔ 0 ≤ w.toInt ∧ w.toInt % 100 = op.opcode := by
  simp only [selectOp_ok_iff, exists_and_left, exists_eq, and_true, eq_comm (a := (op.opcode : Int))]

/-- The canonical word of an instruction of three operands (30_encoding.md R62). -/
theorem encodeWord_of_three_operands {i : Instr} (h : i.operands = [p0, p1, dst]) :
    encodeWord i = i.op.opcode + 100 * p0.mode.digit + 1000 * p1.mode.digit + 10000 * dst.mode.digit := by
  simp only [encodeWord, h, modesValue]
  omega

/-! Add and Multiply, case by case (41_arithmetic.md R91, R92). -/

theorem toI64_eq_some_iff {v : Int} {r : I64} : toI64 v = some r ↔ r.toInt = v :=
  ⟨toI64_some, fun h => h ▸ toI64_toInt r⟩

/-- Every integer in range is the value of an `I64`. -/
theorem exists_toInt_eq {v : Int} (h : -2 ^ 63 ≤ v ∧ v ≤ 2 ^ 63 - 1) : ∃ r : I64, r.toInt = v := by
  obtain ⟨r, hr⟩ := Option.ne_none_iff_exists'.1 fun hnone => toI64_none.1 hnone h
  exact ⟨r, toI64_some hr⟩

theorem finish_of_error {r : Except Cause CoreState} {e : Cause} (h : r = .error e) : finish s r = .next (s.raise e) :=
  finish_next.2 (.inl ⟨e, h, rfl⟩)

section Arith

variable {f : Int → Int → Int} {a b v : I64} {ea : Nat} {e : Cause}

theorem finish_arith_of_readTwo_error (h : s.core.readTwo p0 p1 = .error e) :
    finish s (s.core.arith f p0 p1 dst) = .next (s.raise e) :=
  finish_of_error (by simp only [CoreState.arith, h])

variable (ha : s.core.readParam p0 = .ok a) (hb : s.core.readParam p1 = .ok b)
include ha hb

/-- Both sources read, the result is exact and the destination resolves: the result is stored there. -/
theorem finish_arith_of_ok (hv : v.toInt = f a.toInt b.toInt) (hea : s.core.writeAddr dst = .ok ea) :
    finish s (s.core.arith f p0 p1 dst) =
      .next { s with core := { s.core with mem := s.core.mem.write ea v, pc := s.core.pc + 4 } } :=
  finish_next.2 (.inr ⟨_, CoreState.arith_ok.2 ⟨a, b, v, ea, ha, hb, hv, hea, rfl⟩, rfl⟩)

/-- An overflow is raised before the destination is resolved (decision D15). -/
theorem finish_arith_of_overflow (h : ¬(-2 ^ 63 ≤ f a.toInt b.toInt ∧ f a.toInt b.toInt ≤ 2 ^ 63 - 1)) :
    finish s (s.core.arith f p0 p1 dst) = .next (s.raise (.arithmeticOverflow s.core.pc s.core.word)) :=
  finish_of_error (by
    simp only [CoreState.arith, CoreState.readTwo_ok.2 ⟨ha, hb⟩, CoreState.exact_error.2 ⟨h, rfl⟩])

theorem finish_arith_of_writeAddr_error (h : -2 ^ 63 ≤ f a.toInt b.toInt ∧ f a.toInt b.toInt ≤ 2 ^ 63 - 1)
    (he : s.core.writeAddr dst = .error e) : finish s (s.core.arith f p0 p1 dst) = .next (s.raise e) := by
  obtain ⟨v, hv⟩ := exists_toInt_eq h
  exact finish_of_error (by
    simp only [CoreState.arith, CoreState.readTwo_ok.2 ⟨ha, hb⟩, CoreState.exact_ok.2 hv,
      CoreState.storeResult_error.2 he])

end Arith

/-- Settles O21: each outcome of the exact sum. -/
theorem addStoresTheExactSum : Obligations.AddStoresTheExactSum :=
  fun _ _ _ _ => ⟨rfl, fun _ => exists_selectOp_ok_iff, encodeWord_of_three_operands rfl,
    fun _ _ _ _ => finish_arith_of_ok,
    fun _ h0 => finish_arith_of_readTwo_error (CoreState.readTwo_error.2 (.inl h0)),
    fun a _ h0 h1 => finish_arith_of_readTwo_error (CoreState.readTwo_error.2 (.inr ⟨a, h0, h1⟩)),
    fun _ _ => finish_arith_of_overflow, fun _ _ _ => finish_arith_of_writeAddr_error⟩

/-- Settles O22: each outcome of the exact product. -/
theorem multiplyStoresTheExactProduct : Obligations.MultiplyStoresTheExactProduct :=
  fun _ _ _ _ => ⟨rfl, fun _ => exists_selectOp_ok_iff, encodeWord_of_three_operands rfl,
    fun _ _ _ _ => finish_arith_of_ok,
    fun _ h0 => finish_arith_of_readTwo_error (CoreState.readTwo_error.2 (.inl h0)),
    fun a _ h0 h1 => finish_arith_of_readTwo_error (CoreState.readTwo_error.2 (.inr ⟨a, h0, h1⟩)),
    fun _ _ => finish_arith_of_overflow, fun _ _ _ => finish_arith_of_writeAddr_error⟩

/-- Settles O23: a row with a result names the `I64` of that value, a row without one is out of range. -/
theorem arithmeticCorners : Obligations.ArithmeticCorners := by
  refine ⟨fun a => toI64_eq_some_iff.2 (add_zero _).symm, toI64_none.2 (by decide), toI64_none.2 (by decide),
    toI64_eq_some_iff.2 (by decide), toI64_eq_some_iff.2 (by decide), fun a => toI64_eq_some_iff.2 (mul_zero _).symm,
    fun a => toI64_eq_some_iff.2 (zero_mul _).symm, fun a => toI64_eq_some_iff.2 (mul_one _).symm, fun a hmin => ?_,
    toI64_none.2 (by decide), toI64_eq_some_iff.2 (by decide), toI64_none.2 (by decide), toI64_eq_some_iff.2 (by decide),
    toI64_none.2 (by decide), toI64_eq_some_iff.2 (by decide), fun a b v h => ?_⟩
  · have hle := BitVec.le_toInt a
    have hlt := BitVec.toInt_lt (x := a)
    obtain ⟨v, hv⟩ := exists_toInt_eq (v := -a.toInt) (by omega)
    exact ⟨v, toI64_eq_some_iff.2 (by omega), hv⟩
  · rw [toI64_some h]
    exact ⟨mul_pos_of_neg_of_neg, mul_neg_of_neg_of_pos⟩

end Sys2Proof.Machine

/-! SUPPORT. Channels and what reads and writes them: Produce and Consume, each outcome of Input and of Output, what a step of
the platform does to a queue, and the host's use of channel ends. Then the obligations of input and output (42_io.md). -/

namespace Sys2Proof.Machine

variable {s t : State} {c : CoreState}

/-! Produce and Consume on one channel (42_io.md R101, R102). -/

theorem Channel.produce_of_dropped {ch : Channel} (h : ch.consumerDropped = true) (v : I64) : ch.produce v = ch :=
  if_pos h

theorem Channel.produce_of_not_dropped {ch : Channel} (h : ch.consumerDropped = false) (v : I64) :
    ch.produce v = { ch with q := ch.q ++ [v] } := by
  rw [Channel.produce, if_neg (Bool.eq_false_iff.1 h)]

theorem Channel.consume_of_cons {ch : Channel} {v : I64} {vs : List I64} (h : ch.q = v :: vs) :
    ch.consume = .value v { ch with q := vs } :=
  Channel.consume_value.2 ⟨vs, h, rfl⟩

/-- Settles O51: Produce looks at the consuming end alone, Consume at the queue before the producing end. -/
theorem produceAppendsAndConsumeTakesTheOldest : Obligations.ProduceAppendsAndConsumeTakesTheOldest :=
  ⟨fun _ v => ⟨fun h => Channel.produce_of_dropped h v, fun h => Channel.produce_of_not_dropped h v⟩,
    fun _ _ _ => Channel.consume_of_cons, fun _ hq hclosed => Channel.consume_closed.2 ⟨hq, hclosed⟩,
    fun _ hq hopen => Channel.consume_wouldBlock.2 ⟨hq, hopen⟩⟩

/-- A Produce and a Consume that finds a value make no difference to each other (42_io.md R109). -/
theorem Channel.consume_produce {ch rest : Channel} {w : I64} (h : ch.consume = .value w rest) (v : I64) :
    (ch.produce v).consume = .value w (rest.produce v) := by
  obtain ⟨ws, hq, rfl⟩ := Channel.consume_value.1 h
  by_cases hdropped : ch.consumerDropped = true
  · simpa only [Channel.produce, hdropped, if_true] using h
  · simp only [Channel.produce, hdropped]
    exact Channel.consume_of_cons (by rw [hq]; rfl)

/-! Each outcome of Input (42_io.md R105). -/

theorem execInput_of_writeAddr_error {dst : Operand} {e : Cause} (he : s.core.writeAddr dst = .error e) :
    execInput dst s = .next (s.raise e) := by
  simp only [execInput, he]

theorem inputMissing_of_lenient (h : s.core.params.strictInput = false) (why : NoInput) :
    inputMissing why s = .next (s.withCore (s.core.advance 2)) :=
  inputMissing_next.2 (.inr ⟨h, rfl⟩)

theorem inputMissing_of_strict (h : s.core.params.strictInput = true) (why : NoInput) :
    inputMissing why s = .next (s.raise (.inputUnavailable s.core.pc why)) :=
  inputMissing_next.2 (.inl ⟨h, rfl⟩)

section Input

variable {dst : Operand} {ea k : Nat} {ch : Channel}

theorem execInput_of_no_endpoint (hea : s.core.writeAddr dst = .ok ea) (hin : s.core.inCh = none) :
    execInput dst s = inputMissing .noEndpoint s := by
  simp only [execInput, inputTo, hea, hin]

variable (hea : s.core.writeAddr dst = .ok ea) (hk : s.core.inCh = some k) (hch : s.chans[k]? = some ch)
include hea hk hch

theorem execInput_of_closed (hcons : ch.consume = .closed) : execInput dst s = inputMissing .closed s := by
  simp only [execInput, inputTo, hea, hk, hch, hcons]

theorem execInput_of_wouldBlock (hcons : ch.consume = .wouldBlock) : execInput dst s = .fault .blocked := by
  simp only [execInput, inputTo, hea, hk, hch, hcons]

end Input

/-- What an Input finds: its destination faults, it has no endpoint, or there is a channel to Consume from (decision D16). -/
inductive InputOutcome (dst : Operand) (s : State) : Prop
  | badDestination (e : Cause) (he : s.core.writeAddr dst = .error e)
  | noEndpoint (ea : Nat) (hea : s.core.writeAddr dst = .ok ea) (hin : s.core.inCh = none)
  | noSuchChannel (h : execInput dst s = .fault .noSuchChannel)
  | consumes (ea k : Nat) (ch : Channel) (hea : s.core.writeAddr dst = .ok ea) (hk : s.core.inCh = some k)
      (hch : s.chans[k]? = some ch)

theorem inputOutcome (dst : Operand) (s : State) : InputOutcome dst s := by
  cases hea : s.core.writeAddr dst with
  | error e => exact .badDestination e hea
  | ok ea =>
    cases hk : s.core.inCh with
    | none => exact .noEndpoint ea hea hk
    | some k =>
      cases hch : s.chans[k]? with
      | none => exact .noSuchChannel (by simp only [execInput, inputTo, hea, hk, hch])
      | some ch => exact .consumes ea k ch hea hk hch

/-! Each outcome of Output (42_io.md R106). -/

section Output

variable {p0 : Operand} {v : I64} {k : Nat}

theorem execOutput_of_readParam_error {e : Cause} (he : s.core.readParam p0 = .error e) :
    execOutput p0 s = .next (s.raise e) := by
  simp only [execOutput, he]

variable (hv : s.core.readParam p0 = .ok v)
include hv

theorem execOutput_of_no_endpoint (hout : s.core.outCh = none) :
    execOutput p0 s = .next (s.withCore ((s.core.setLast v).advance 2)) := by
  simp only [execOutput, produceOut, hv, hout]

theorem execOutput_of_no_channel (hk : s.core.outCh = some k) (hch : s.chans[k]? = none) :
    execOutput p0 s = .fault .noSuchChannel := by
  simp only [execOutput, produceOut, hv, hk, hch]

theorem execOutput_of_channel {ch : Channel} (hk : s.core.outCh = some k) (hch : s.chans[k]? = some ch) :
    execOutput p0 s = .next ((s.withChan k (ch.produce v)).withCore ((s.core.setLast v).advance 2)) := by
  simp only [execOutput, produceOut, hv, hk, hch, State.withChan_core]

end Output

/-- The canonical word of an instruction of one operand (30_encoding.md R62). -/
theorem encodeWord_of_one_operand {i : Instr} {p : Operand} (h : i.operands = [p]) :
    encodeWord i = i.op.opcode + 100 * p.mode.digit := by
  simp only [encodeWord, h, modesValue]
  omega

theorem State.withChan_self {k : Nat} {ch : Channel} (h : s.chans[k]? = some ch) : s.withChan k ch = s := by
  obtain ⟨hk, rfl⟩ := List.getElem?_eq_some_iff.1 h
  rw [State.withChan, List.set_getElem_self]

/-- Settles O24: each outcome of Input. -/
theorem inputTakesTheOldestValue : Obligations.InputTakesTheOldestValue :=
  fun _ _ => ⟨rfl, fun _ => exists_selectOp_ok_iff, encodeWord_of_one_operand rfl,
    fun _ => execInput_of_writeAddr_error, fun _ hea =>
    ⟨fun hin hlenient => (execInput_of_no_endpoint hea hin).trans (inputMissing_of_lenient hlenient _),
      fun hin hstrict => (execInput_of_no_endpoint hea hin).trans (inputMissing_of_strict hstrict _),
      fun _ _ hk hch => ⟨fun _ _ => execInput_of_value hea hk hch,
        fun hq hclosed hlenient => (execInput_of_closed hea hk hch (Channel.consume_closed.2 ⟨hq, hclosed⟩)).trans
          (inputMissing_of_lenient hlenient _),
        fun hq hclosed hstrict => (execInput_of_closed hea hk hch (Channel.consume_closed.2 ⟨hq, hclosed⟩)).trans
          (inputMissing_of_strict hstrict _),
        fun hq hopen => execInput_of_wouldBlock hea hk hch (Channel.consume_wouldBlock.2 ⟨hq, hopen⟩)⟩⟩⟩

/-- Settles O25: each outcome of Output. -/
theorem outputProducesAndRecords : Obligations.OutputProducesAndRecords := by
  refine fun p0 s => ⟨rfl, fun _ => exists_selectOp_ok_iff, encodeWord_of_one_operand rfl,
    fun _ => execOutput_of_readParam_error, fun v hv => ⟨execOutput_of_no_endpoint hv, fun k ch hk hch => ⟨?_, ?_⟩⟩⟩
  · intro hdropped
    refine (execOutput_of_channel hv hk hch).trans ?_
    rw [Channel.produce_of_dropped hdropped, State.withChan_self hch]
    rfl
  · intro hlive
    refine (execOutput_of_channel hv hk hch).trans ?_
    rw [Channel.produce_of_not_dropped hlive]
    rfl

/-! Blocking (42_io.md R104). -/

/-- An Input blocks on an empty open channel alone. -/
theorem execInput_blocked {dst : Operand} (h : execInput dst s = .fault .blocked) :
    ∃ ea k ch, s.core.writeAddr dst = .ok ea ∧ s.core.inCh = some k ∧ s.chans[k]? = some ch ∧
      ch.q = [] ∧ ch.producerClosed = false := by
  cases inputOutcome dst s with
  | badDestination e he => cases (execInput_of_writeAddr_error he).symm.trans h
  | noEndpoint ea hea hin =>
    obtain ⟨t, ht⟩ := exists_inputMissing_next .noEndpoint s
    cases ((execInput_of_no_endpoint hea hin).trans ht).symm.trans h
  | noSuchChannel hstop => cases hstop.symm.trans h
  | consumes ea k ch hea hk hch =>
    cases hcons : ch.consume with
    | value v rest =>
      obtain ⟨vs, hq, -⟩ := Channel.consume_value.1 hcons
      cases (execInput_of_value hea hk hch hq).symm.trans h
    | closed =>
      obtain ⟨t, ht⟩ := exists_inputMissing_next .closed s
      cases ((execInput_of_closed hea hk hch hcons).trans ht).symm.trans h
    | wouldBlock =>
      obtain ⟨hq, hopen⟩ := Channel.consume_wouldBlock.1 hcons
      exact ⟨ea, k, ch, hea, hk, hch, hq, hopen⟩

theorem execOutput_ne_blocked (p0 : Operand) (s : State) : execOutput p0 s ≠ .fault .blocked := by
  intro h
  cases hv : s.core.readParam p0 with
  | error e => cases (execOutput_of_readParam_error hv).symm.trans h
  | ok v =>
    cases hk : s.core.outCh with
    | none => cases (execOutput_of_no_endpoint hv hk).symm.trans h
    | some k =>
      cases hch : s.chans[k]? with
      | none => cases (execOutput_of_no_channel hv hk hch).symm.trans h
      | some ch => cases (execOutput_of_channel hv hk hch).symm.trans h

/-- Settles O43: Input alone waits, and of its outcomes only the empty open channel gives no step. -/
theorem blockedExactlyOnAnEmptyOpenChannel : Obligations.BlockedExactlyOnAnEmptyOpenChannel := by
  refine fun i s => ⟨fun h => ?_, ?_⟩
  · cases i with
    | input dst =>
      obtain ⟨ea, k, ch, hblocked⟩ := execInput_blocked h
      exact ⟨dst, ea, k, ch, rfl, hblocked⟩
    | output p0 => exact absurd h (execOutput_ne_blocked p0 s)
    | halt => cases h
    | add | mul | jumpIfTrue | jumpIfFalse | lessThan | equals | adjustRelativeBase =>
      obtain ⟨t, ht⟩ := exists_finish_next s _
      cases ht.symm.trans h
  · rintro ⟨dst, ea, k, ch, rfl, hea, hk, hch, hq, hopen⟩
    exact execInput_of_wouldBlock hea hk hch (Channel.consume_wouldBlock.2 ⟨hq, hopen⟩)

/-- Settles O44: the channel the Input looks at is then one with a value, or a closed one. -/
theorem blockIsLiftedByAnotherAgent : Obligations.BlockIsLiftedByAnotherAgent := by
  intro dst s ea k ch v hblocked hea hk hch
  obtain ⟨-, k', ch', -, hk', hch', hq, -⟩ := execInput_blocked hblocked
  cases hk.symm.trans hk'
  cases hch.symm.trans hch'
  have hget : ∀ ch₁, (s.withChan k ch₁).chans[k]? = some ch₁ := fun _ =>
    List.getElem?_set_self (List.getElem?_eq_some_iff.1 hch).1
  constructor
  · intro hlive
    have hqueue : (ch.produce v).q = [v] := by rw [Channel.produce_of_not_dropped hlive, hq]; rfl
    have hrest : ({ ch.produce v with q := [] } : Channel) = ch := by rw [Channel.produce_of_not_dropped hlive, ← hq]
    refine ⟨_, execInput_of_value (s := s.withChan k (ch.produce v)) hea hk (hget _) hqueue, ?_, rfl⟩
    rw [hrest]
    simpa only [State.withChan_chans, State.withCore_chans, List.set_set] using congrArg State.chans (State.withChan_self hch)
  · intro hlenient
    have hclosed : ch.closeProducer.consume = .closed := Channel.consume_closed.2 ⟨hq, rfl⟩
    exact ⟨_, (execInput_of_closed (s := s.withChan k ch.closeProducer) hea hk (hget _) hclosed).trans
      (inputMissing_of_lenient (s := s.withChan k ch.closeProducer) hlenient .closed), rfl⟩

/-! Frames. -/

/-- Settles O33: a fault changes the status alone, an Input without a value `pc` alone, one with a value also its cell and its
channel. -/
theorem inputFrame : Obligations.InputFrame := by
  intro dst s t h
  rcases execInput_next h with ⟨e, rfl⟩ | rfl | ⟨ea, k, ch, v, vs, hea, hk, hch, hq, rfl⟩
  · exact ⟨rfl, rfl, rfl, rfl, rfl, rfl, rfl, rfl, rfl, rfl, fun _ _ _ _ => rfl, fun _ _ => rfl, fun _ _ => rfl,
      .inr ⟨e, rfl, rfl, rfl, rfl⟩⟩
  · exact ⟨rfl, rfl, rfl, rfl, rfl, rfl, rfl, rfl, rfl, rfl, fun _ _ _ _ => rfl, fun _ _ => rfl, fun _ _ => rfl, .inl rfl⟩
  · refine ⟨rfl, rfl, rfl, rfl, rfl, rfl, rfl, rfl, rfl, rfl, fun ea' hea' a ha => ?_, fun e he => ?_, fun k' hk' => ?_,
      .inl rfl⟩
    · cases hea.symm.trans hea'
      exact Memory.read_write_of_ne s.core.mem v ha
    · cases hea.symm.trans he
    · exact List.getElem?_set_ne fun hkk : k = k' => hk' (hkk ▸ hk)

/-- Settles O34: a fault changes the status alone, and each instruction that completes what its own rule names. -/
theorem nonStoringFrame : Obligations.NonStoringFrame := by
  intro i s t hdst h
  cases i with
  | add | mul | input | lessThan | equals => cases hdst
  | output p0 =>
    rcases execOutput_next h with ⟨e, rfl⟩ | ⟨v, -, ⟨-, rfl⟩ | ⟨k, ch, hk, -, rfl⟩⟩
    · simp
    · simp
    · have hother : ∀ k', s.core.outCh ≠ some k' → (s.withChan k (ch.produce v)).chans[k']? = s.chans[k']? :=
        fun k' hk' => List.getElem?_set_ne fun hkk : k = k' => hk' (hkk ▸ hk)
      simpa using hother
  | jumpIfTrue p0 p1 | jumpIfFalse p0 p1 =>
    rcases finish_next.1 h with ⟨e, -, rfl⟩ | ⟨c', hc', rfl⟩
    · simp
    · obtain ⟨v, -, ⟨-, rfl⟩ | ⟨-, w, -, -, rfl⟩⟩ := CoreState.jumpWhen_ok.1 hc' <;> simp
  | adjustRelativeBase p0 =>
    rcases finish_next.1 h with ⟨e, -, rfl⟩ | ⟨c', hc', rfl⟩
    · simp
    · obtain ⟨a, v, -, -, rfl⟩ := CoreState.adjustRb_ok.1 hc'
      simp
  | halt => cases h; simp


/-! What a step does to a queue. -/

/-- A channel after one step, if its queue is first in, first out and what is given up stays so (42_io.md R109). -/
def Channel.StepsTo (ch ch' : Channel) : Prop :=
  (ch'.q = ch.q ∨ (∃ v, ch'.q = ch.q ++ [v]) ∨ ∃ v, ch.q = v :: ch'.q) ∧
    (ch.producerClosed = true → ch'.producerClosed = true) ∧
    (ch.consumerDropped = true → ch'.consumerDropped = true ∧ ch'.q.length ≤ ch.q.length)

theorem Channel.StepsTo.refl (ch : Channel) : ch.StepsTo ch := ⟨.inl rfl, id, fun h => ⟨h, le_rfl⟩⟩

theorem Channel.StepsTo.produce (ch : Channel) (v : I64) : ch.StepsTo (ch.produce v) := by
  by_cases hdropped : ch.consumerDropped = true
  · rw [Channel.produce_of_dropped hdropped]
    exact .refl ch
  · rw [Channel.produce_of_not_dropped (Bool.eq_false_iff.2 hdropped)]
    exact ⟨.inr (.inl ⟨v, rfl⟩), id, fun h => absurd h hdropped⟩

theorem Channel.StepsTo.consume {ch : Channel} {v : I64} {vs : List I64} (hq : ch.q = v :: vs) :
    ch.StepsTo { ch with q := vs } :=
  ⟨.inr (.inr ⟨v, hq⟩), id, fun h => ⟨h, by simp [hq]⟩⟩

theorem Channel.StepsTo.closeProducer (ch : Channel) : ch.StepsTo ch.closeProducer :=
  ⟨.inl rfl, fun _ => rfl, fun h => ⟨h, le_rfl⟩⟩

theorem Channel.StepsTo.dropConsumer (ch : Channel) : ch.StepsTo ch.dropConsumer :=
  ⟨.inl rfl, id, fun _ => ⟨rfl, le_rfl⟩⟩

/-- Each channel is still there, and has taken such a step. -/
def ChannelsStep (chans chans' : List Channel) : Prop :=
  ∀ (k : Nat) (ch : Channel), chans[k]? = some ch → ∃ ch', chans'[k]? = some ch' ∧ ch.StepsTo ch'

theorem ChannelsStep.refl (chans : List Channel) : ChannelsStep chans chans := fun _ ch h => ⟨ch, h, .refl ch⟩

theorem ChannelsStep.set {chans : List Channel} {k : Nat} {ch ch' : Channel} (hch : chans[k]? = some ch)
    (h : ch.StepsTo ch') : ChannelsStep chans (chans.set k ch') := by
  intro l dh hdh
  by_cases hkl : k = l
  · subst hkl
    cases hch.symm.trans hdh
    exact ⟨ch', List.getElem?_set_self (List.getElem?_eq_some_iff.1 hch).1, h⟩
  · exact ⟨dh, (List.getElem?_set_ne hkl).trans hdh, .refl dh⟩

theorem ChannelsStep.append (chans more : List Channel) : ChannelsStep chans (chans ++ more) := fun _ ch h =>
  ⟨ch, (List.getElem?_append_left (List.getElem?_eq_some_iff.1 h).1).trans h, .refl ch⟩

theorem ChanEffect.channelsStep {chans chans' : List Channel} (h : ChanEffect c chans chans') :
    ChannelsStep chans chans' := by
  rcases h with rfl | ⟨k, ch, v, -, hch, rfl⟩ | ⟨k, ch, v, vs, -, hch, hq, rfl⟩
  · exact .refl _
  · exact .set hch (.produce ch v)
  · exact .set hch (.consume hq)

theorem HostEffect.channelsStep (h : HostEffect s t) : ChannelsStep s.chans t.chans := by
  cases h with
  | quiet _ hchans => exact hchans ▸ .refl _
  | newChannel _ hchans => exact hchans ▸ .append _ _
  | construct _ _ _ _ _ _ _ hchans => exact hchans ▸ .refl _
  | produce k ch v hch _ _ hchans => exact hchans ▸ .set hch (.produce ch v)
  | closeProducer k ch hch _ _ hchans => exact hchans ▸ .set hch (.closeProducer ch)
  | dropConsumer k ch hch _ _ hchans => exact hchans ▸ .set hch (.dropConsumer ch)
  | drain k ch v vs hch _ hq _ hchans => exact hchans ▸ .set hch (.consume hq)

/-- Settles O42: a step is a core's move or the host's, and each uses at most one channel. -/
theorem channelsAreFifo : Obligations.ChannelsAreFifo := by
  intro s t k ch hstep hch
  rcases step_effect hstep with ⟨j, c, c', i, -, -, -, -, heffect, -⟩ | heffect
  · exact heffect.channelsStep k ch hch
  · exact heffect.channelsStep k ch hch

/-! The start and the result of `run_with_inputs` (42_io.md R107). -/

/-- Values produced one after the other stand in the queue in that order (42_io.md R101). -/
theorem Channel.foldl_produce {ch : Channel} (hlive : ch.consumerDropped = false) (inputs : List I64) :
    inputs.foldl Channel.produce ch = { ch with q := ch.q ++ inputs } := by
  induction inputs generalizing ch with
  | nil => rw [List.append_nil]; rfl
  | cons v vs ih =>
    rw [List.foldl_cons, Channel.produce_of_not_dropped hlive]
    refine (ih (ch := { ch with q := ch.q ++ [v] }) hlive).trans ?_
    rw [List.append_assoc]
    rfl

/-- A core used alone starts as constructed, beside the channels given (10_state.md R181, R182). -/
theorem State.solo_some {params : Params} {p : List I64} {i o : Option Nat} {chans : List Channel}
    (h : State.solo params p i o chans = some s) : s.core = CoreState.new params p i o ∧ s.chans = chans := by
  unfold State.solo at h
  split at h
  · cases h; exact ⟨rfl, rfl⟩
  · cases h

theorem State.outputs_of_halted {ch : Channel} (hch : s.chans[1]? = some ch) (hhalted : s.core.status = .halted) :
    s.outputs = some ch.q := by
  simp only [State.outputs, hhalted, hch]

theorem State.outputs_of_not_halted (h : s.core.status ≠ .halted) : s.outputs = none := by
  unfold State.outputs
  split
  · rename_i hhalted _; exact absurd hhalted h
  · rfl

/-- Settles O20: the inputs are produced one after the other into a new channel. -/
theorem runWithInputsPreloadsInOrder : Obligations.RunWithInputsPreloadsInOrder := by
  intro params p inputs closes s h
  obtain ⟨hcore, hchans⟩ := State.solo_some h
  refine ⟨hcore, hchans.trans ?_, fun t ch hch => ⟨State.outputs_of_halted hch, State.outputs_of_not_halted⟩⟩
  rw [Channel.foldl_produce rfl]
  cases closes <;> rfl

/-! The host's use of channel ends (60_exceptions.md R174, 42_io.md R103). -/

theorem State.producerStopped_iff {k : Nat} :
    s.producerStopped k = true ↔ ∀ c ∈ s.cores, c.outCh = some k → c.status ≠ .running := by
  simp [State.producerStopped, CoreState.stopped_iff, imp_iff_not_or]

theorem State.consumerStopped_iff {k : Nat} :
    s.consumerStopped k = true ↔ ∀ c ∈ s.cores, c.inCh = some k → c.status ≠ .running := by
  simp [State.consumerStopped, CoreState.stopped_iff, imp_iff_not_or]

theorem State.hostConsumes_iff {k : Nat} : s.hostConsumes k = true ↔ ∀ c ∈ s.cores, c.inCh ≠ some k := by
  simp [State.hostConsumes]

section HostChannel

variable {k : Nat} {ch : Channel} (hch : s.chans[k]? = some ch)
include hch

theorem hostProduce_of_channel (v : I64) : hostProduce k v s =
    if ch.producerClosed then .refused .hostForbidden else .next (s.withChan k (ch.produce v)) := by
  simp only [hostProduce, hch]

theorem hostCloseProducer_of_channel : hostCloseProducer k s =
    if s.producerStopped k && !ch.producerClosed then .next (s.withChan k ch.closeProducer)
    else .refused .hostForbidden := by
  simp only [hostCloseProducer, hch]

theorem hostDropConsumer_of_channel : hostDropConsumer k s =
    if s.consumerStopped k && !ch.consumerDropped then .next (s.withChan k ch.dropConsumer)
    else .refused .hostForbidden := by
  simp only [hostDropConsumer, hch]

theorem hostDrain_of_not_held (h : ¬(s.hostConsumes k = true ∧ ch.consumerDropped = false)) :
    hostDrain k s = .refused .hostForbidden := by
  simp only [hostDrain, hch]
  exact if_neg (by simpa using h)

section HeldEnd

variable (hold : s.hostConsumes k = true) (hlive : ch.consumerDropped = false)
include hold hlive

theorem hostDrain_of_value {v : I64} {rest : Channel} (hcons : ch.consume = .value v rest) :
    hostDrain k s = .next ((s.withChan k rest).hostGets (.value k v)) := by
  simp [hostDrain, hch, hold, hlive, hcons]

theorem hostDrain_of_closed (hcons : ch.consume = .closed) : hostDrain k s = .next (s.hostGets (.closed k)) := by
  simp [hostDrain, hch, hold, hlive, hcons]

theorem hostDrain_of_wouldBlock (hcons : ch.consume = .wouldBlock) : hostDrain k s = .fault .blocked := by
  simp [hostDrain, hch, hold, hlive, hcons]

end HeldEnd

end HostChannel

/-- Settles O52: the host looks at who holds the end, and at whether it is given up already. -/
theorem endsAreReleasedOnlyWhenAllowed : Obligations.EndsAreReleasedOnlyWhenAllowed := by
  intro s k ch hch
  have hclose := hostCloseProducer_of_channel hch
  have hdrop := hostDropConsumer_of_channel hch
  refine ⟨fun hstopped hopen => hclose.trans (if_pos ?_), ?_, fun hclosed => hclose.trans (if_neg ?_),
    fun hstopped hlive => hdrop.trans (if_pos ?_), ?_, fun hdropped => hdrop.trans (if_neg ?_)⟩
  · simp [State.producerStopped_iff.2 hstopped, hopen]
  · rintro ⟨c, hc, hk, hrun⟩
    refine hclose.trans (if_neg fun h => ?_)
    exact State.producerStopped_iff.1 (Bool.and_eq_true_iff.1 h).1 c hc hk hrun
  · simp [hclosed]
  · simp [State.consumerStopped_iff.2 hstopped, hlive]
  · rintro ⟨c, hc, hk, hrun⟩
    refine hdrop.trans (if_neg fun h => ?_)
    exact State.consumerStopped_iff.1 (Bool.and_eq_true_iff.1 h).1 c hc hk hrun
  · simp [hdropped]

/-- Settles O54: Produce by the host asks for an open channel, a drain for a consuming end the host holds. -/
theorem hostProducesAndDrainsChannels : Obligations.HostProducesAndDrainsChannels := by
  intro s k v ch hch
  have hproduce := hostProduce_of_channel hch v
  refine ⟨fun hopen => hproduce.trans (if_neg (Bool.eq_false_iff.1 hopen)), fun hclosed => hproduce.trans (if_pos hclosed),
    fun hfree hlive => ?_, fun hdropped => hostDrain_of_not_held hch fun h => ?_, ?_⟩
  · have hold := State.hostConsumes_iff.2 hfree
    exact ⟨fun w ws hq => hostDrain_of_value hch hold hlive (Channel.consume_of_cons hq),
      fun hq hclosed => hostDrain_of_closed hch hold hlive (Channel.consume_closed.2 ⟨hq, hclosed⟩),
      fun hq hopen => hostDrain_of_wouldBlock hch hold hlive (Channel.consume_wouldBlock.2 ⟨hq, hopen⟩)⟩
  · rw [hdropped] at h; cases h.2
  · rintro ⟨c, hc, hk⟩
    exact hostDrain_of_not_held hch fun h => State.hostConsumes_iff.1 h.1 c hc hk

end Sys2Proof.Machine

/-! SUPPORT. The order of two cores' moves. A core's move is a request to at most one channel that depends on that core alone, and
requests of two cores are granted in either order with the same result. Then the obligation of schedules (60_exceptions.md
R176). -/

namespace Sys2Proof.Machine

variable {s t : State} {c c' d : CoreState}

/-! What a core asks of one channel. -/

/-- The uses a core makes of a channel in one step: it produces a value, takes the oldest one, or finds the channel closed and
empty (42_io.md R101, R102). -/
inductive ChannelUse where
  | produce (v : I64)
  | take (v : I64)
  | findClosed

/-- The channel before and after a use, where the channel grants it: an empty open channel grants a consumer nothing. -/
def ChannelUse.Turns (use : ChannelUse) (ch ch' : Channel) : Prop :=
  match use with
  | .produce v => ch' = ch.produce v
  | .take v => ch.consume = .value v ch'
  | .findClosed => ch.consume = .closed ∧ ch' = ch

/-- Is the use one of the producing end, and not of the consuming end? -/
def ChannelUse.produces : ChannelUse → Bool
  | .produce _ => true
  | .take _ | .findClosed => false

/-- The channel whose producing end, or whose consuming end, a core holds (10_state.md R17). -/
def CoreState.endpoint (c : CoreState) (producing : Bool) : Option Nat := if producing then c.outCh else c.inCh

/-- Uses of the two ends of one channel make no difference to each other, while a producing end in use is open
(42_io.md R109): a Produce goes to the tail and a Consume comes from the head. -/
theorem ChannelUse.diamond {x y : ChannelUse} {ch a b : Channel} (hends : x.produces ≠ y.produces)
    (hopen : ch.producerClosed = false) (hx : x.Turns ch a) (hy : y.Turns ch b) : ∃ e, y.Turns a e ∧ x.Turns b e := by
  have hnews : ch.consume ≠ .closed := fun h => by simp [(Channel.consume_closed.1 h).2] at hopen
  cases x with
  | produce v =>
    cases hx
    cases y with
    | produce => exact absurd rfl hends
    | take w => exact ⟨b.produce v, Channel.consume_produce hy v, rfl⟩
    | findClosed => exact absurd hy.1 hnews
  | take w =>
    cases y with
    | produce v => cases hy; exact ⟨a.produce v, rfl, Channel.consume_produce hx v⟩
    | take | findClosed => exact absurd rfl hends
  | findClosed => exact absurd hx.1 hnews

/-! What a core asks of the platform. -/

/-- What a core asks of the platform in one step: nothing, or the use of one channel. -/
inductive Request where
  | own
  | use (k : Nat) (op : ChannelUse)

/-- The channels before and after a request, where they grant it. -/
def Request.Turns (r : Request) (chans chans' : List Channel) : Prop :=
  match r with
  | .own => chans' = chans
  | .use k op => ∃ ch ch', chans[k]? = some ch ∧ op.Turns ch ch' ∧ chans' = chans.set k ch'

/-- The core holds the end its request is about. -/
def Request.HeldBy (r : Request) (c : CoreState) : Prop :=
  match r with
  | .own => True
  | .use k op => c.endpoint op.produces = some k

/-- On every platform whose current core is `c` and whose channels grant the request, `run` leaves `c'`. -/
structure Asks (run : State → Result) (c : CoreState) (r : Request) (c' : CoreState) : Prop where
  held : r.HeldBy c
  granted : ∀ s chans', s.core = c → r.Turns s.chans chans' → run s = .next { s with core := c', chans := chans' }

/-- From `s` to `t`, `run` did no more than what it asked for. -/
def RunsByRequest (run : State → Result) (s t : State) : Prop :=
  ∃ r c', Asks run s.core r c' ∧ r.Turns s.chans t.chans

section RunsByRequest

variable {run : State → Result} (h : run s = .next t)
include h

/-- A meaning that acts on its core alone. -/
theorem RunsByRequest.of_own (hrun : ∀ s', s'.core = s.core → run s' = .next (s'.withCore c')) : RunsByRequest run s t := by
  cases (hrun s rfl).symm.trans h
  exact ⟨.own, c', ⟨trivial, fun s' _ hc hchans => hchans ▸ hrun s' hc⟩, rfl⟩

/-- A meaning that uses one channel. -/
theorem RunsByRequest.of_use {k : Nat} {op : ChannelUse} {ch ch' : Channel} (hk : s.core.endpoint op.produces = some k)
    (hch : s.chans[k]? = some ch) (hturns : op.Turns ch ch')
    (hrun : ∀ s' ch ch', s'.core = s.core → s'.chans[k]? = some ch → op.Turns ch ch' →
      run s' = .next ((s'.withChan k ch').withCore c')) : RunsByRequest run s t := by
  cases (hrun s ch ch' rfl hch hturns).symm.trans h
  refine ⟨.use k op, c', ⟨hk, ?_⟩, ch, ch', hch, hturns, rfl⟩
  rintro s' _ hc ⟨ch₁, ch₁', hch₁, hturns₁, rfl⟩
  exact hrun s' ch₁ ch₁' hc hch₁ hturns₁

end RunsByRequest

/-! Every meaning, and so a core's step, is a request. -/

/-- An instruction that acts on its core alone has one result, whatever else the platform holds. -/
theorem exists_finish_eq (r : Except Cause CoreState) (c : CoreState) :
    ∃ c', ∀ s, s.core = c → finish s r = .next (s.withCore c') := by
  cases r with
  | error e => exact ⟨c.setStatus (.faulted e), fun s hc => by rw [← hc]; rfl⟩
  | ok c' => exact ⟨c', fun _ _ => rfl⟩

theorem exists_inputMissing_eq (why : NoInput) (c : CoreState) :
    ∃ c', ∀ s, s.core = c → inputMissing why s = .next (s.withCore c') := by
  cases hstrict : c.params.strictInput with
  | false => exact ⟨c.advance 2, fun s hc => by rw [inputMissing_of_lenient (hc ▸ hstrict), hc]⟩
  | true =>
    exact ⟨c.setStatus (.faulted (.inputUnavailable c.pc why)), fun s hc => by
      rw [inputMissing_of_strict (hc ▸ hstrict), State.raise, hc]⟩

theorem execInput_runsByRequest {dst : Operand} (h : execInput dst s = .next t) : RunsByRequest (execInput dst) s t := by
  cases inputOutcome dst s with
  | badDestination e he =>
    exact .of_own h fun s' hc => by rw [execInput_of_writeAddr_error (hc ▸ he), State.raise, hc]
  | noEndpoint ea hea hin =>
    obtain ⟨c', hmissing⟩ := exists_inputMissing_eq .noEndpoint s.core
    exact .of_own h fun s' hc => (execInput_of_no_endpoint (hc ▸ hea) (hc ▸ hin)).trans (hmissing s' hc)
  | noSuchChannel hstop => cases hstop.symm.trans h
  | consumes ea k ch hea hk hch =>
    cases hcons : ch.consume with
    | value v rest =>
      refine .of_use (c' := (s.core.store ea v).advance 2) (op := .take v) h hk hch hcons
        fun s' ch₁ rest₁ hc hch₁ hcons₁ => ?_
      obtain ⟨vs, hq, rfl⟩ := Channel.consume_value.1 hcons₁
      rw [execInput_of_value (hc ▸ hea) (hc ▸ hk) hch₁ hq, hc]; rfl
    | closed =>
      obtain ⟨c', hmissing⟩ := exists_inputMissing_eq .closed s.core
      refine .of_use (c' := c') (op := .findClosed) h hk hch ⟨hcons, rfl⟩ fun s' ch₁ ch₁' hc hch₁ hturns => ?_
      obtain ⟨hcons₁, rfl⟩ := hturns
      rw [State.withChan_self hch₁]
      exact (execInput_of_closed (hc ▸ hea) (hc ▸ hk) hch₁ hcons₁).trans (hmissing s' hc)
    | wouldBlock => cases (execInput_of_wouldBlock hea hk hch hcons).symm.trans h

theorem execOutput_runsByRequest {p0 : Operand} (h : execOutput p0 s = .next t) : RunsByRequest (execOutput p0) s t := by
  cases hv : s.core.readParam p0 with
  | error e =>
    exact .of_own h fun s' hc => by rw [execOutput_of_readParam_error (hc ▸ hv), State.raise, hc]
  | ok v =>
    cases hk : s.core.outCh with
    | none => exact .of_own h fun s' hc => by rw [execOutput_of_no_endpoint (hc ▸ hv) (hc ▸ hk), hc]
    | some k =>
      cases hch : s.chans[k]? with
      | none => cases (execOutput_of_no_channel hv hk hch).symm.trans h
      | some ch =>
        refine .of_use (c' := (s.core.setLast v).advance 2) (op := .produce v) h hk hch rfl
          fun s' ch₁ ch₁' hc hch₁ hturns => ?_
        cases hturns
        rw [execOutput_of_channel (hc ▸ hv) (hc ▸ hk) hch₁, hc]

/-- EVERY instruction asks for nothing, or for one use of one channel. -/
theorem exec_runsByRequest {i : Instr} (h : exec i s = .next t) : RunsByRequest (exec i) s t := by
  cases i with
  | input dst => exact execInput_runsByRequest h
  | output p0 => exact execOutput_runsByRequest h
  | halt => exact .of_own h fun s' hc => by rw [exec, execHalt, hc]
  | add | mul | jumpIfTrue | jumpIfFalse | lessThan | equals | adjustRelativeBase =>
    exact .of_own h fun s' hc => by
      simp only [Machine.exec, execAdd, execMul, execJumpIfTrue, execJumpIfFalse, execLessThan, execEquals,
        execAdjustRelativeBase, hc]
      exact (exists_finish_eq _ s.core).choose_spec s' hc

theorem coreStep_runsByRequest (h : coreStep s = .next t) : RunsByRequest coreStep s t := by
  obtain ⟨hrun, ⟨e, he, -⟩ | ⟨i, hi, hexec⟩⟩ := coreStep_next h
  · exact .of_own h fun s' hc => by rw [coreStep_of_fetch_error (hc ▸ hrun) (hc ▸ he), State.raise, hc]
  · obtain ⟨r, c', ⟨hheld, hgranted⟩, hturns⟩ := exec_runsByRequest hexec
    exact ⟨r, c', ⟨hheld, fun s' chans' hc hr =>
      (coreStep_of_fetch (hc ▸ hrun) (hc ▸ hi)).trans (hgranted s' chans' hc hr)⟩, hturns⟩

/-- A core whose request the channels grant has a move, on every platform it is a core of. -/
theorem Asks.move_core {r : Request} {j : Nat} {chans' : List Channel} (h : Asks coreStep c r c')
    (hget : s.cores[j]? = some c) (hturns : r.Turns s.chans chans') :
    ∃ t, move (.core j) s = .next t ∧ t.cores = s.cores.set j c' ∧ t.chans = chans' ∧ t.host = s.host := by
  obtain ⟨u, hu, hucore⟩ := State.select_of_getElem? hget
  obtain ⟨hcores, rfl, -, hchans, hhost, -⟩ := State.select_spec hu
  rw [← hchans] at hturns
  exact ⟨_, (move_core_of_select hu).trans (h.granted u chans' hucore hturns), hcores ▸ State.withCore_cores u c', rfl,
    hhost⟩

/-- A core's move is the grant of a request that depends on that core alone. -/
theorem move_core_asks {j : Nat} (h : move (.core j) s = .next t) :
    ∃ c r c', s.cores[j]? = some c ∧ c.status = .running ∧ Asks coreStep c r c' ∧ r.Turns s.chans t.chans ∧
      t.cores = s.cores.set j c' ∧ t.host = s.host := by
  obtain ⟨u, hu, hstep⟩ := move_core_next h
  obtain ⟨-, -, hget, hchans, -⟩ := State.select_spec hu
  obtain ⟨r, c', hasks, hturns⟩ := coreStep_runsByRequest hstep
  rw [hchans] at hturns
  obtain ⟨t', hmove, hcores, -, hhost⟩ := hasks.move_core hget hturns
  cases hmove.symm.trans h
  exact ⟨u.core, r, c', hget, (coreStep_next hstep).1, hasks, hturns, hcores, hhost⟩

/-! Requests of two cores. -/

/-- Two requests that the channels grant are granted one after the other, in either order, and leave the same channels. Where
they are about one channel, they must be uses of its two ends. -/
theorem Request.diamond {x y : Request} {chans a b : List Channel} (hx : x.Turns chans a) (hy : y.Turns chans b)
    (hshared : ∀ k p q, x = .use k p → y = .use k q → p.produces ≠ q.produces ∧
      ∀ ch, chans[k]? = some ch → ch.producerClosed = false) : ∃ e, y.Turns a e ∧ x.Turns b e := by
  cases x with
  | own => cases hx; exact ⟨b, hy, rfl⟩
  | use k p =>
    cases y with
    | own => cases hy; exact ⟨a, rfl, hx⟩
    | use l q =>
      obtain ⟨ch, ch', hch, hp, rfl⟩ := hx
      obtain ⟨dh, dh', hdh, hq, rfl⟩ := hy
      by_cases hkl : k = l
      · subst hkl
        cases hch.symm.trans hdh
        obtain ⟨hends, hopen⟩ := hshared k p q rfl rfl
        obtain ⟨e, hqe, hpe⟩ := ChannelUse.diamond hends (hopen ch hch) hp hq
        have hk := (List.getElem?_eq_some_iff.1 hch).1
        exact ⟨chans.set k e, ⟨ch', e, List.getElem?_set_self hk, hqe, by rw [List.set_set]⟩,
          dh', e, List.getElem?_set_self hk, hpe, by rw [List.set_set]⟩
      · exact ⟨(chans.set k ch').set l dh', ⟨dh, dh', (List.getElem?_set_ne hkl).trans hdh, hq, rfl⟩,
          ch, ch', (List.getElem?_set_ne (Ne.symm hkl)).trans hch, hp, List.set_comm _ _ hkl⟩

/-- Where a function has no value twice along a list, elements at two places differ in it. -/
theorem ne_some_of_nodup_filterMap {f : CoreState → Option Nat} {l : List CoreState} {i j k : Nat}
    (h : (l.filterMap f).Nodup) (hij : i ≠ j) (hc : l[i]? = some c) (hd : l[j]? = some d) (hk : f c = some k) :
    f d ≠ some k := by
  intro hk'
  obtain ⟨hi, rfl⟩ := List.getElem?_eq_some_iff.1 hc
  obtain ⟨hj, rfl⟩ := List.getElem?_eq_some_iff.1 hd
  have happart := List.pairwise_iff_getElem.1 (List.pairwise_filterMap.1 h)
  rcases Nat.lt_or_gt_of_ne hij with hlt | hlt
  · exact happart i j hi hj hlt k hk k hk' rfl
  · exact happart j i hj hi hlt k hk' k hk rfl

section TwoCores

variable {i j k : Nat} (hij : i ≠ j) (hc : s.cores[i]? = some c) (hd : s.cores[j]? = some d)
include hij hc hd

/-- No end is held by two cores (10_state.md R18). -/
theorem State.wired.endpoint_ne (h : s.wired) (producing : Bool) (hk : c.endpoint producing = some k) :
    d.endpoint producing ≠ some k := by
  obtain ⟨hin, hout, -⟩ := h
  cases producing with
  | false => exact ne_some_of_nodup_filterMap hin hij hc hd hk
  | true => exact ne_some_of_nodup_filterMap hout hij hc hd hk

/-- Two Running cores that use one channel use its two ends, and its producing end is open (60_exceptions.md R174). -/
theorem State.Inv.use_two_ends {p q : ChannelUse} (h : s.Inv) (hcrun : c.status = .running) (hdrun : d.status = .running)
    (hp : c.endpoint p.produces = some k) (hq : d.endpoint q.produces = some k) :
    p.produces ≠ q.produces ∧ ∀ ch, s.chans[k]? = some ch → ch.producerClosed = false := by
  obtain ⟨-, hwired, hlive⟩ := h
  have hne : p.produces ≠ q.produces := fun hpq => hwired.endpoint_ne hij hc hd _ hp (hpq ▸ hq)
  refine ⟨hne, fun ch hch => ?_⟩
  cases hproduces : p.produces with
  | true =>
    rw [hproduces] at hp
    exact (hlive c (List.mem_of_getElem? hc) hcrun k ch hch).1 hp
  | false =>
    have hq' : q.produces = true := by simpa [hproduces] using hne
    rw [hq'] at hq
    exact (hlive d (List.mem_of_getElem? hd) hdrun k ch hch).1 hq

end TwoCores

/-- Settles O60: each core's request is granted in either order, and a grant moves its core in the same way whatever else the
platform holds. -/
theorem schedulesCommute : Obligations.SchedulesCommute := by
  intro s s1 s2 i j hinv hij h1 h2
  obtain ⟨c, x, c', hc, hcrun, hx, hx1, hcores1, hhost1⟩ := move_core_asks h1
  obtain ⟨d, y, d', hd, hdrun, hy, hy2, hcores2, hhost2⟩ := move_core_asks h2
  obtain ⟨e, hye, hxe⟩ := Request.diamond hx1 hy2 fun k p q hp hq => by
    subst hp hq
    exact hinv.use_two_ends hij hc hd hcrun hdrun hx.held hy.held
  have hd1 : s1.cores[j]? = some d := by rw [hcores1, List.getElem?_set_ne hij, hd]
  have hc2 : s2.cores[i]? = some c := by rw [hcores2, List.getElem?_set_ne hij.symm, hc]
  obtain ⟨t1, ht1, hcores1', hchans1, hhost1'⟩ := hy.move_core hd1 hye
  obtain ⟨t2, ht2, hcores2', hchans2, hhost2'⟩ := hx.move_core hc2 hxe
  refine ⟨t1, t2, ht1, ht2, ?_, hchans1.trans hchans2.symm, by rw [hhost1', hhost1, hhost2', hhost2]⟩
  rw [hcores1', hcores1, hcores2', hcores2, List.set_comm _ _ hij]

end Sys2Proof.Machine

/-! SUPPORT. What a conditional jump answers, for any condition on the value read: not taken, taken to a cell address, and each
fault in its order. Then the obligations of the jumps (43_jump.md). -/

namespace Sys2Proof.Machine

variable {s : State} {p0 p1 : Operand}

/-- The canonical word of an instruction of two operands (30_encoding.md R62). -/
theorem encodeWord_of_two_operands {i : Instr} (h : i.operands = [p0, p1]) :
    encodeWord i = i.op.opcode + 100 * p0.mode.digit + 1000 * p1.mode.digit := by
  simp only [encodeWord, h, modesValue]
  omega

/-- A negative target names no cell (decision D10). -/
theorem CoreState.setPc_of_neg {t : Int} (h : t < 0) (c : CoreState) :
    c.setPc t = .error (.addressOutOfRange t .jump) := if_pos h

/-! Each outcome of a conditional jump (43_jump.md R120, R121). -/

section Jump

variable {cond : I64 → Bool} {v w : I64} {e : Cause}

theorem finish_jumpWhen_of_value_error (h : s.core.readParam p0 = .error e) :
    finish s (s.core.jumpWhen cond p0 p1) = .next (s.raise e) :=
  finish_of_error (by simp only [CoreState.jumpWhen, h])

variable (hv : s.core.readParam p0 = .ok v)
include hv

/-- A jump that is not taken does not look at its target (decision D12). -/
theorem finish_jumpWhen_of_not_taken (hcond : cond v = false) :
    finish s (s.core.jumpWhen cond p0 p1) = .next { s with core := { s.core with pc := s.core.pc + 3 } } :=
  finish_next.2 (.inr ⟨_, CoreState.jumpWhen_ok.2 ⟨v, hv, .inl ⟨hcond, rfl⟩⟩, rfl⟩)

variable (hcond : cond v = true)
include hcond

theorem finish_jumpWhen_of_target_error (h : s.core.readParam p1 = .error e) :
    finish s (s.core.jumpWhen cond p0 p1) = .next (s.raise e) :=
  finish_of_error (by simp only [CoreState.jumpWhen, hv, hcond, h, if_true])

variable (hw : s.core.readParam p1 = .ok w)
include hw

theorem finish_jumpWhen_of_negative_target (hneg : w.toInt < 0) :
    finish s (s.core.jumpWhen cond p0 p1) = .next (s.raise (.addressOutOfRange w.toInt .jump)) :=
  finish_of_error (by simp only [CoreState.jumpWhen, hv, hcond, hw, if_true, CoreState.setPc_of_neg hneg])

/-- A target that is not negative is taken, whether or not the cell exists (43_jump.md R122). -/
theorem finish_jumpWhen_of_target {n : Nat} (hn : w.toInt = n) :
    finish s (s.core.jumpWhen cond p0 p1) = .next { s with core := { s.core with pc := n } } := by
  obtain rfl : w.toInt.toNat = n := by rw [hn, Int.toNat_natCast]
  have hnonneg : 0 ≤ w.toInt := hn ▸ Int.natCast_nonneg _
  exact finish_next.2 (.inr ⟨_, CoreState.jumpWhen_ok.2 ⟨v, hv, .inr ⟨hcond, w, hw, hnonneg, rfl⟩⟩, rfl⟩)

end Jump

/-- Settles O26: each outcome of a jump whose condition is a value other than zero. -/
theorem jumpIfTrueTakesTheTarget : Obligations.JumpIfTrueTakesTheTarget := by
  refine fun p0 p1 s => ⟨rfl, fun _ => exists_selectOp_ok_iff, encodeWord_of_two_operands rfl,
    fun _ => finish_jumpWhen_of_value_error, fun v hv => ⟨fun hzero => ?_, fun hnonzero => ?_⟩⟩
  · exact finish_jumpWhen_of_not_taken hv (isNonzero_eq_false.2 hzero)
  · have hcond : isNonzero v = true := isNonzero_eq_true.2 hnonzero
    exact ⟨fun _ => finish_jumpWhen_of_target_error hv hcond, fun _ hw =>
      ⟨finish_jumpWhen_of_negative_target hv hcond hw, fun _ => finish_jumpWhen_of_target hv hcond hw⟩⟩

/-- Settles O27: each outcome of a jump whose condition is the value zero. -/
theorem jumpIfFalseTakesTheTarget : Obligations.JumpIfFalseTakesTheTarget := by
  refine fun p0 p1 s => ⟨rfl, fun _ => exists_selectOp_ok_iff, encodeWord_of_two_operands rfl,
    fun _ => finish_jumpWhen_of_value_error, fun v hv => ⟨fun hnonzero => ?_, fun hzero => ?_⟩⟩
  · exact finish_jumpWhen_of_not_taken hv (congrArg not (isNonzero_eq_true.2 hnonzero))
  · have hcond : (!isNonzero v) = true := congrArg not (isNonzero_eq_false.2 hzero)
    exact ⟨fun _ => finish_jumpWhen_of_target_error hv hcond, fun _ hw =>
      ⟨finish_jumpWhen_of_negative_target hv hcond hw, fun _ => finish_jumpWhen_of_target hv hcond hw⟩⟩

end Sys2Proof.Machine

/-! SUPPORT. What a comparison answers, for any test of the two values read: the 1 or 0 stored, and each fault in its order. Then
the obligations of the comparisons (44_compare.md). -/

namespace Sys2Proof.Machine

variable {s : State} {p0 p1 dst : Operand}

/-! The value stored, for each of the two tests. -/

theorem truthValue_lessThan (a b : I64) : truthValue (lessThan a b) = if a.toInt < b.toInt then 1#64 else 0#64 := by
  simp only [truthValue, lessThan, decide_eq_true_iff]

/-- The model compares signed integers; that is equality of the 64-bit values. -/
theorem truthValue_sameValue (a b : I64) : truthValue (sameValue a b) = if a = b then 1#64 else 0#64 := by
  simp only [truthValue, sameValue, decide_eq_true_iff, BitVec.toInt_inj]

/-! Each outcome of a comparison (44_compare.md R130, R131). -/

section Compare

variable {f : I64 → I64 → Bool} {a b : I64} {ea : Nat} {e : Cause}

theorem finish_compare_of_readTwo_error (h : s.core.readTwo p0 p1 = .error e) :
    finish s (s.core.compare f p0 p1 dst) = .next (s.raise e) :=
  finish_of_error (by simp only [CoreState.compare, h])

variable (ha : s.core.readParam p0 = .ok a) (hb : s.core.readParam p1 = .ok b)
include ha hb

/-- Both sources read and the destination resolves: 1 or 0 is stored there, whichever way the test went. -/
theorem finish_compare_of_ok (hea : s.core.writeAddr dst = .ok ea) :
    finish s (s.core.compare f p0 p1 dst) = .next { s with
      core := { s.core with mem := s.core.mem.write ea (truthValue (f a b)), pc := s.core.pc + 4 } } :=
  finish_next.2 (.inr ⟨_, CoreState.compare_ok.2 ⟨a, b, ea, ha, hb, hea, rfl⟩, rfl⟩)

/-- Between the reads and the destination nothing can fault: a comparison does not overflow. -/
theorem finish_compare_of_writeAddr_error (he : s.core.writeAddr dst = .error e) :
    finish s (s.core.compare f p0 p1 dst) = .next (s.raise e) :=
  finish_of_error (by
    simp only [CoreState.compare, CoreState.readTwo_ok.2 ⟨ha, hb⟩, CoreState.storeResult_error.2 he])

end Compare

/-- Settles O28: each outcome of the signed comparison. -/
theorem lessThanStoresOneOrZero : Obligations.LessThanStoresOneOrZero := by
  refine fun p0 p1 dst s => ⟨rfl, fun _ => exists_selectOp_ok_iff, encodeWord_of_three_operands rfl,
    fun a b v ea ha hb hv hea => ?_,
    fun _ h0 => finish_compare_of_readTwo_error (CoreState.readTwo_error.2 (.inl h0)),
    fun a _ h0 h1 => finish_compare_of_readTwo_error (CoreState.readTwo_error.2 (.inr ⟨a, h0, h1⟩)),
    fun _ _ _ => finish_compare_of_writeAddr_error⟩
  rw [hv, ← truthValue_lessThan]
  exact finish_compare_of_ok ha hb hea

/-- Settles O29: each outcome of the comparison for equality. -/
theorem equalsStoresOneOrZero : Obligations.EqualsStoresOneOrZero := by
  refine fun p0 p1 dst s => ⟨rfl, fun _ => exists_selectOp_ok_iff, encodeWord_of_three_operands rfl,
    fun a b v ea ha hb hv hea => ?_,
    fun _ h0 => finish_compare_of_readTwo_error (CoreState.readTwo_error.2 (.inl h0)),
    fun a _ h0 h1 => finish_compare_of_readTwo_error (CoreState.readTwo_error.2 (.inr ⟨a, h0, h1⟩)),
    fun _ _ _ => finish_compare_of_writeAddr_error⟩
  rw [hv, ← truthValue_sameValue]
  exact finish_compare_of_ok ha hb hea

end Sys2Proof.Machine

/-! SUPPORT. What AdjustRelativeBase answers: the checked sum in `rb`, and each fault in its order. Then its obligation
(45_relative_base.md). -/

namespace Sys2Proof.Machine

variable {s : State} {p0 : Operand}

/-! Each outcome of AdjustRelativeBase (45_relative_base.md R140). -/

section AdjustRelativeBase

variable {a v : I64} {e : Cause}

theorem finish_adjustRb_of_readParam_error (h : s.core.readParam p0 = .error e) :
    finish s (s.core.adjustRb p0) = .next (s.raise e) :=
  finish_of_error (by simp only [CoreState.adjustRb, h])

variable (ha : s.core.readParam p0 = .ok a)
include ha

/-- The operand is read at the old `rb`, and their exact sum is the new one. -/
theorem finish_adjustRb_of_ok (hv : v.toInt = s.core.rb.toInt + a.toInt) :
    finish s (s.core.adjustRb p0) = .next { s with core := { s.core with rb := v, pc := s.core.pc + 2 } } :=
  finish_next.2 (.inr ⟨_, CoreState.adjustRb_ok.2 ⟨a, v, ha, hv, rfl⟩, rfl⟩)

/-- `rb` is no wider than 64 bits (decision D2), and a sum outside them does not wrap around (decision D8). -/
theorem finish_adjustRb_of_overflow
    (h : ¬(-2 ^ 63 ≤ s.core.rb.toInt + a.toInt ∧ s.core.rb.toInt + a.toInt ≤ 2 ^ 63 - 1)) :
    finish s (s.core.adjustRb p0) = .next (s.raise (.arithmeticOverflow s.core.pc s.core.word)) :=
  finish_of_error (by simp only [CoreState.adjustRb, ha, CoreState.exact_error.2 ⟨h, rfl⟩])

end AdjustRelativeBase

/-- Settles O30: the operand faults, or its sum with `rb` is exact, or the sum overflows. -/
theorem adjustRelativeBaseAdds : Obligations.AdjustRelativeBaseAdds :=
  fun _ _ => ⟨rfl, fun _ => exists_selectOp_ok_iff, encodeWord_of_one_operand rfl,
    fun _ _ => finish_adjustRb_of_ok, fun _ => finish_adjustRb_of_readParam_error, fun _ => finish_adjustRb_of_overflow⟩

end Sys2Proof.Machine

/-! SUPPORT. Where Halt is fetched. Then the obligation of Halt (46_halt.md). -/

namespace Sys2Proof.Machine

/-- Halt has no operand cell that would have to lie in memory: its word may stand in the last cell (46_halt.md R145). -/
theorem CoreState.fetch_halt {c : CoreState} (hpc : c.pc < c.params.memCap) (hnonneg : 0 ≤ (c.mem.read c.pc).toInt)
    (hcode : (c.mem.read c.pc).toInt % 100 = 99) : c.fetch = .ok .halt := by
  obtain ⟨d, hsel⟩ := exists_selectOp_ok_iff (op := .halt).2 ⟨hnonneg, hcode⟩
  exact CoreState.fetch_ok.2 ⟨hpc, .halt, d, hsel, hpc, rfl⟩

/-- Settles O31: the effect is the definition's own, and a Halted core is a stopped one. -/
theorem haltStopsTheCore : Obligations.HaltStopsTheCore := by
  refine ⟨rfl, fun _ => exists_selectOp_ok_iff, rfl, fun _ => rfl, fun _ => CoreState.fetch_halt,
    fun s j c hget hhalted => ?_⟩
  have hstop : c.status ≠ .running := by simp only [hhalted, ne_eq, reduceCtorEq, not_false_eq_true]
  exact ⟨move_core_of_stopped hget hstop, fun t hstep => stoppedCoresNeverChange s t j c hstep hget hstop⟩

end Sys2Proof.Machine

/-! SUPPORT. Which agent a step is the move of, what a fault leaves of the platform, and where the ring of five starts and ends.
Then the obligations of the platform (60_exceptions.md). -/

namespace Sys2Proof.Machine

variable {s t : State}

/-! Which agent a step is the move of (60_exceptions.md R170). -/

theorem pickAgent_mem (a : Agent) (others : List Agent) (n : Nat) : pickAgent a others n ∈ a :: others := by
  have hlt : n % (others.length + 1) < (a :: others).length := Nat.mod_lt n (Nat.succ_pos _)
  rw [pickAgent, List.getD_eq_getElem _ _ hlt]
  exact List.getElem_mem hlt

theorem State.mem_ready {a : Agent} : a ∈ s.ready ↔ a ∈ s.agents ∧ hasStep s a = true := List.mem_filter

/-- Where no turn is given a ready agent moves: the only one, or the one the free choice picks (log 4). -/
theorem step_next_of_no_turn (hturns : s.turns = []) (h : step s = .next t) :
    ∃ a ∈ s.ready, ∃ tick, move a { s with tick := tick } = .next t := by
  unfold step platformStep at h
  split at h
  · rename_i a rest hgiven
    cases hturns.symm.trans hgiven
  · split at h
    · cases h
    · rename_i a hready
      exact ⟨a, hready ▸ List.mem_singleton_self a, s.tick, h⟩
    · rename_i a b others hready
      exact ⟨_, hready ▸ pickAgent_mem a (b :: others) (Config.schedule s.tick), s.tick + 1, h⟩

/-- Settles O14: the agents a step chooses among are those that have one. -/
theorem someReadyAgentMoves : Obligations.SomeReadyAgentMoves := by
  refine ⟨fun s t hturns hstep => ?_, fun s a rest => step_of_turn⟩
  obtain ⟨a, hready, tick, hmove⟩ := step_next_of_no_turn hturns hstep
  obtain ⟨hagent, hhas⟩ := State.mem_ready.1 hready
  exact ⟨a, tick, hagent, hhas, hmove⟩

/-! What a fault leaves (60_exceptions.md R158). -/

/-- A core's own step that leaves it Faulted raised that fault, in fetching or in executing, and did nothing else. -/
theorem coreStep_faulted {e : Cause} (h : coreStep s = .next t) (hfault : t.core.status = .faulted e) : t = s.raise e := by
  obtain ⟨hrun, hcase⟩ := coreStep_next h
  have hraise : ∃ e', t = s.raise e' := by
    rcases hcase with ⟨e', -, ht⟩ | ⟨i, -, hexec⟩
    · exact ⟨e', ht⟩
    · rcases exec_raises_or_completes hexec with hraise | hdone
      · exact hraise
      · have hst := hdone.status
        rw [hfault, hrun] at hst
        split at hst <;> cases hst
  obtain ⟨e', rfl⟩ := hraise
  cases hfault
  rfl

/-- Settles O37: the move raised the fault, and a Faulted core is a stopped one. -/
theorem faultsArePrecise : Obligations.FaultsArePrecise := by
  intro s t j c c' e hmove hget hget' hfault
  obtain ⟨u, hu, hstep, hucore, htcore, -⟩ := move_core_frame hmove
  cases hget.symm.trans hucore
  cases hget'.symm.trans htcore
  obtain ⟨hcores, rfl, -, hchans, hhost, -⟩ := State.select_spec hu
  obtain rfl := coreStep_faulted hstep hfault
  exact ⟨rfl, hcores ▸ State.withCore_cores u _, hchans, hhost, fun v hv => move_core_of_stopped hv nofun⟩

/-! The start of the ring (60_exceptions.md R171, R172). -/

section Ring

variable {params : Params} {p : List I64} {phases : Vector I64 Config.ringCores}

theorem State.ring_some (h : State.ring params p phases = some s) :
    constructible params p = true ∧ s.cores = (List.range Config.ringCores).map (ringCore params p) ∧
      s.chans = (List.finRange Config.ringCores).map (ringChannel phases) := by
  unfold State.ring at h
  split at h
  · rename_i hfit
    cases h
    exact ⟨hfit, rfl, rfl⟩
  · cases h

/-- Seeding gives up no end. -/
theorem ringChannel_givenUp (i : Fin Config.ringCores) : (ringChannel phases i).givenUp = (false, false) := by
  unfold ringChannel
  split <;> simp only [Channel.produce_givenUp] <;> rfl

/-- The ring is wired: each of its five channels has one core at each end, and those two differ. -/
theorem State.ring_wired (h : State.ring params p phases = some s) : s.wired := by
  obtain ⟨-, hcores, hchans⟩ := State.ring_some h
  have hends : s.cores.map CoreState.ends =
      (List.range Config.ringCores).map fun i => (some i, some ((i + 1) % Config.ringCores)) := by
    rw [hcores, List.map_map]
    rfl
  have hlen : s.chans.length = Config.ringCores := by rw [hchans, List.length_map, List.length_finRange]
  rw [State.wired_iff_ends, hends, hlen, List.forall_mem_map]
  refine ⟨by decide, by decide, fun i hi => ⟨?_, ?_, ?_⟩⟩
  · rintro k ⟨⟩
    exact List.mem_range.1 hi
  · rintro k ⟨⟩
    exact Nat.mod_lt _ (by decide)
  · rintro k ⟨⟩ heq
    have hlt : i < 5 := List.mem_range.1 hi
    have hself : (i + 1) % 5 = i := Option.some.inj heq
    omega

end Ring

/-- Settles O18: the cores are constructed, the wiring is a ring's, and seeding gives up no end. -/
theorem ringStartMeetsTheInvariant : Obligations.RingStartMeetsTheInvariant := by
  intro params p phases s h
  obtain ⟨hfit, hcores, hchans⟩ := State.ring_some h
  refine ⟨?_, State.ring_wired h, fun c _ _ k ch hch => ?_⟩
  · rw [hcores, List.forall_mem_map]
    exact fun i _ => CoreState.new_legal hfit _ _
  · have hmem : ch ∈ s.chans := List.mem_of_getElem? hch
    rw [hchans] at hmem
    obtain ⟨i, -, rfl⟩ := List.mem_map.1 hmem
    obtain ⟨hopen, hlive⟩ := Prod.mk.inj (ringChannel_givenUp (phases := phases) i)
    exact ⟨fun _ => hopen, fun _ => hlive⟩

/-- Settles O19: cores and channels are listed by number, and each channel is a new one seeded. -/
theorem ringIsWiredAndSeeded : Obligations.RingIsWiredAndSeeded := by
  intro params p phases s h
  obtain ⟨-, hcores, hchans⟩ := State.ring_some h
  rw [hcores, hchans]
  refine ⟨rfl, rfl, fun i hi => ?_, rfl, rfl, rfl, rfl, rfl⟩
  rw [List.getElem?_map, List.getElem?_range hi]
  rfl

/-! The result of the ring (60_exceptions.md R173). -/

theorem State.ringResult_of_success {c : CoreState} (hlen : s.cores.length = Config.ringCores) (hget : s.cores[4]? = some c)
    (h : s.success) : s.ringResult = c.lastOutput := by
  have hall : s.cores.all (fun c => decide (c.status = .halted)) = true :=
    List.all_eq_true.2 fun c hc => decide_eq_true (h c hc)
  rw [State.ringResult, if_pos ⟨hlen, hall⟩, hget]

theorem State.ringResult_of_not_success (h : ¬s.success) : s.ringResult = none :=
  if_neg fun ⟨_, hall⟩ => h fun c hc => of_decide_eq_true (List.all_eq_true.1 hall c hc)

/-- Settles O55: the result is asked of core 4 exactly where all five have halted. -/
theorem ringResultIsLastOutputOfCoreFour : Obligations.RingResultIsLastOutputOfCoreFour :=
  fun _ _ hlen hget => ⟨State.ringResult_of_success hlen hget, State.ringResult_of_not_success⟩

end Sys2Proof.Machine
